-- ==== Sys2Proof/Word.lean ====
section
/-! DEFINITION. The block's word, byte and fixed-length vectors (spec/00_scope.md R6, R7). Types only: all
arithmetic is in Machine/Transform.lean and Machine/BlockGen.lean. -/

namespace Sys2Proof

/-- A state word, a command header or a response word: 32 bits, unsigned (R6, R7). -/
abbrev Word := BitVec 32

/-- A payload byte, a result byte or a byte of the keystream buffer (R7, R35). -/
abbrev Byte := BitVec 8

/-- Sixteen state words, word 0 first (10_state.md R10). -/
abbrev Words := Vector Word 16

/-- A keystream block: 64 bytes, byte 0 first (00_scope.md R6). -/
abbrev Block := Vector Byte 64

/-- A key of the one legal length, `key[0]` first (R6). -/
abbrev Key := Vector Byte 32

/-- A nonce of the one legal length, `nonce[0]` first (R6). -/
abbrev Nonce := Vector Byte 8

end Sys2Proof
end

