-- ==== Sys2Proof/Syntax.lean ====
section
/-! DEFINITION. The commands, one constructor per row of spec/opcode_table.json (30_encoding.md R52, R53). A
command is its header; its payload comes on `din` when the command executes (R54). -/

namespace Sys2Proof

/-- The three host commands (00_scope.md R3). The lengths are counts of bytes, so they are Nat; their ranges are
checked in WellFormed.lean. -/
inductive Instr where
  /-- INIT, CC20's `construct`: key length KLEN and nonce length NLEN (R55, R120). -/
  | init (klen nlen : Nat)
  /-- APPLY, CC20's `apply`: number of source bytes LEN (R56, R124). -/
  | apply (len : Nat)
  /-- ERASE, CC20's `reset` (R130). -/
  | erase
deriving DecidableEq, Repr

end Sys2Proof
end

