-- ==== Sys2Proof/WellFormed.lean ====
section
/-! DEFINITION. Which commands a header can carry: the ranges of the length fields (spec/30_encoding.md R52). -/

namespace Sys2Proof

/-- KLEN and NLEN are 8-bit fields, 0 to 255; LEN is a 24-bit field, 0 to 16,777,215 (R52, R55, R56). -/
def Instr.wellFormed : Instr → Bool
  | .init klen nlen => decide (klen < 256) && decide (nlen < 256)
  | .apply len => decide (len < 16777216)
  | .erase => true

end Sys2Proof
end

