-- ==== Sys2Proof/Decode.lean ====
section
/-! DEFINITION. Command headers: the decoder, total on all 2^32 headers and rejecting by name, the payload length,
the encoder, and the opcode map as data (spec/30_encoding.md R52 to R58, 42_engine_commands.md R134). -/

namespace Sys2Proof

/-- Why a header is illegal, the three cases of R57. -/
inductive IllegalHeader where
  /-- case (a): OPC is not 0x01, 0x02 or 0x03 -/
  | unknownOpcode
  /-- case (b): OPC is 0x01 and RSVI is not 0 -/
  | reservedInit
  /-- case (c): OPC is 0x03 and RSVZ is not 0 -/
  | reservedErase
deriving DecidableEq, Repr

/-- What a header is: one of the three commands or illegal; there is no third case (R57). -/
inductive Decoded where
  | instr (i : Instr)
  | illegal (why : IllegalHeader)
deriving DecidableEq, Repr

/-- OPC, header bits 7:0 (R52). -/
def headerOpc (h : Word) : BitVec 8 := h.extractLsb' 0 8

/-- KLEN, header bits 15:8 of format I (R52). -/
def headerKlen (h : Word) : BitVec 8 := h.extractLsb' 8 8

/-- NLEN, header bits 23:16 of format I (R52). -/
def headerNlen (h : Word) : BitVec 8 := h.extractLsb' 16 8

/-- RSVI, header bits 31:24 of format I (R52). -/
def headerRsvi (h : Word) : BitVec 8 := h.extractLsb' 24 8

/-- LEN of format A and RSVZ of format Z, header bits 31:8 (R52). -/
def headerHigh (h : Word) : BitVec 24 := h.extractLsb' 8 24

/-- Command decode (R134, R53, R57). It does not read the state. -/
def decode (h : Word) : Decoded :=
  if headerOpc h = 0x01#8 then
    if headerRsvi h = 0#8 then .instr (.init (headerKlen h).toNat (headerNlen h).toNat)
    else .illegal .reservedInit
  else if headerOpc h = 0x02#8 then .instr (.apply (headerHigh h).toNat)
  else if headerOpc h = 0x03#8 then
    if headerHigh h = 0#24 then .instr .erase else .illegal .reservedErase
  else .illegal .unknownOpcode

/-- The number of payload bytes the block takes from `din` after header `h` (R54): a function of the header
alone, legal or not. -/
def payloadLen (h : Word) : Nat :=
  if headerOpc h = 0x01#8 then (headerKlen h).toNat + (headerNlen h).toNat
  else if headerOpc h = 0x02#8 then (headerHigh h).toNat
  else 0

/-- The payload length of a command, from its operands (R54, R55, R56, R130). -/
def Instr.payload : Instr → Nat
  | .init klen nlen => klen + nlen
  | .apply len => len
  | .erase => 0

/-- The header of a command, fields most significant first (R52). -/
def encode : Instr → Word
  | .init klen nlen => 0#8 ++ BitVec.ofNat 8 nlen ++ BitVec.ofNat 8 klen ++ 0x01#8
  | .apply len => BitVec.ofNat 24 len ++ 0x02#8
  | .erase => 0#24 ++ 0x03#8

/-- One row of the opcode map (R53): a header `h` selects the row when `h AND mask = pattern`. -/
structure OpcodeRow where
  pattern : Word
  mask : Word
deriving DecidableEq, Repr

/-- A header selects a row (R53). -/
def OpcodeRow.selects (r : OpcodeRow) (h : Word) : Bool := h &&& r.mask == r.pattern

/-- The row of INIT (R53). -/
def initRow : OpcodeRow := ⟨0x00000001#32, 0xFF0000FF#32⟩

/-- The row of APPLY (R53). -/
def applyRow : OpcodeRow := ⟨0x00000002#32, 0x000000FF#32⟩

/-- The row of ERASE (R53). -/
def eraseRow : OpcodeRow := ⟨0x00000003#32, 0xFFFFFFFF#32⟩

/-- The command the decoder reads from a header given as `nbits` bits of the number `w`. A command header is one
32-bit word that crosses `cmd` whole, so no byte order enters; bits above 31 are payload, no part of the header
(R52, R58; log entry 9). -/
def decodeTableWord (nbits w : Nat) : Option Instr :=
  match decode (BitVec.ofNat 32 (w % 2 ^ nbits)) with
  | .instr i => some i
  | .illegal _ => none

end Sys2Proof
end

