-- ==== Sys2Proof/Config.lean ====
section
/-! DEFINITION. The block's parameters (spec/00_scope.md R6) and its free values. A constant without a body is
a value the spec leaves open: no proof can see what it is. -/

namespace Sys2Proof.Config

/-- KEY_BYTES (R6). -/
def keyBytes : Nat := 32

/-- NONCE_BYTES (R6). -/
def nonceBytes : Nat := 8

/-- ROUNDS is 20, that is 10 double rounds (R6, 40_core_transform.md R88). -/
def doubleRounds : Nat := 10

/-- BLOCK_BYTES, the addresses of the keystream buffer (R6, 20_memory.md R30). -/
def blockBytes : Nat := 64

/-- T_INIT, OPEN (R6, 70_reset_and_hazards.md R181). No rule and no definition of the model reads it. -/
opaque tInit : ℕ+

/-- T_BLOCK, OPEN (R6, R181). No rule and no definition of the model reads it. -/
opaque tBlock : ℕ+

/-- T_BYTE, OPEN (R6, R181). No rule and no definition of the model reads it. -/
opaque tByte : ℕ+

/-- T_ERASE, OPEN (R6, R181). No rule and no definition of the model reads it. -/
opaque tErase : ℕ+

/-- CORE_PARALLELISM less one, OPEN, 1 to 4 quarter-rounds at once (R6, 40_core_transform.md R93). No result
depends on it: `Machine.roundByLanes` is the round evaluated at any parallelism. -/
opaque coreParallelismLessOne : Fin 4

/-- Free value (log entry 5): how many payload bytes of a command cut short by reset are gone from `din`, before
it is bounded by the bytes announced and supplied (70_reset_and_hazards.md R172). The argument is
`State.draws`. -/
opaque cutGone : Nat → Nat

/-- Free value (log entry 5): how many `dout` bytes of a command cut short by reset the host had taken, before it
is bounded by the bytes that could have been emitted (R172, U13: "any prefix"). The argument is
`State.draws`. -/
opaque cutDelivered : Nat → Nat

end Sys2Proof.Config
end

