-- ==== Sys2Proof/Machine/State.lean ====
section
/-! DEFINITION. The state: the block's 1032 bits (spec/10_state.md), the host's side of the ports, and the model's
counter of drawn free values. Plain data throughout. -/

namespace Sys2Proof.Machine

/-- The keystream buffer's contents as (address, byte) pairs in canonical form (`Memory.wf`): addresses rising,
below 64, no zero byte listed. An unlisted address reads as 0, the reset contents (10_state.md R20; log entry 8). -/
abbrev Memory := List Host.Cell

/-- The block's own state, all of it (10_state.md section 1). -/
structure Engine where
  /-- CipherState `s[0]` to `s[15]` (R10) -/
  s : Words
  /-- keystream buffer `buf[0]` to `buf[63]` (R13) -/
  buf : Memory
  /-- cursor, 7 bits, 0 to 63 at rest (R14) -/
  cur : BitVec 7
  /-- lifecycle flag (R15) -/
  ready : Bool
deriving DecidableEq, Repr

/-- What the host does on `cmd` and `rst` (70_reset_and_hazards.md R182). -/
inductive HostAct where
  /-- the host issues a command header (30_encoding.md R51, R52) -/
  | command (h : Word)
  /-- a reset cycle with no command in execution, or one that ends a command waiting for its payload (R171,
  R179) -/
  | resetCycle
  /-- the host issues a header and asserts `rst` before the command's response has been taken (R172) -/
  | commandThenReset (h : Word)
deriving DecidableEq, Repr

/-- What the block sends: a result byte on `dout` or a response word on `rsp` (30_encoding.md R50). -/
inductive PortOut where
  | dout (b : Byte)
  | rsp (w : Word)
deriving DecidableEq, Repr

/-- The host's side of the four channels and of `rst`. None of it is state of the block (10_state.md R16;
log entry 1). -/
structure Ports where
  /-- what the host does next, oldest first -/
  cmd : List HostAct
  /-- the payload bytes the host supplies, first to be taken first (20_memory.md R31) -/
  din : List Byte
  /-- the bytes and words the host has taken, in order (20_memory.md R44) -/
  out : List PortOut
deriving DecidableEq, Repr

/-- The machine: the block, the host's side of its ports, and the number of free values drawn so far, a field of
the model and not of the spec (log entry 5). -/
structure State where
  eng : Engine
  ports : Ports
  draws : Nat
deriving DecidableEq, Repr

/-- Why a step stops. -/
inductive Fault where
  /-- Raised by a command whose announced payload the host does not supply: it waits for ever and only a reset
  ends it (70_reset_and_hazards.md R179, U12 "stuck"). Safe: the model makes no claim about such a command
  (log entry 3). -/
  | waitingForPayload
  /-- Raised by APPLY when `cur` is above 63: buffer addresses are 0 to 63 (20_memory.md R30) and STEP requires
  `cur <= 63` (42_engine_commands.md R126). No legal state reaches it. Safe (log entry 6). -/
  | noSuchBufferByte
deriving DecidableEq, Repr

/-- Why a command has no meaning in the model. -/
inductive Refusal where
  /-- Raised by `exec` for a command that is not modelled yet. No arm does: every command has its meaning.
  Safe. -/
  | notModelled (mnemonic : String)
deriving DecidableEq, Repr

/-- The erased state, which is also the reset state: every element zero (10_state.md R19, R20). -/
def Engine.erased : Engine :=
  { s := Vector.replicate 16 0#32, buf := [], cur := 0#7, ready := false }

/-- The machine right after hardware reset (10_state.md R20; log entries 1, 5, 15): the block erased, nothing offered by the host,
nothing sent, no free value drawn. -/
def State.reset : State :=
  { eng := Engine.erased, ports := { cmd := [], din := [], out := [] }, draws := 0 }

end Sys2Proof.Machine
end

