-- ==== Sys2Proof/Machine/Flags.lean ====
section
/-! DEFINITION. The one flag and the status a command reports: status codes and the response word
(spec/10_state.md R15, 30_encoding.md R60, 60_exceptions.md R150). -/

namespace Sys2Proof.Machine

/-- The response codes, complete (60_exceptions.md R150). -/
inductive StatusCode where
  /-- 0x00: command executed -/
  | ok
  /-- 0x01, CC20's InvalidKeyLength: KLEN is not 32 -/
  | errKeyLen
  /-- 0x02, CC20's InvalidNonceLength: KLEN is 32 and NLEN is not 8 -/
  | errNonceLen
  /-- 0x03: APPLY with `ready = 0` -/
  | errNotReady
  /-- 0x04: a header outside the three commands -/
  | errIllegal
deriving DecidableEq, Repr

/-- The numeric value of a code (R150). -/
def StatusCode.value : StatusCode → BitVec 8
  | .ok => 0x00#8
  | .errKeyLen => 0x01#8
  | .errNonceLen => 0x02#8
  | .errNotReady => 0x03#8
  | .errIllegal => 0x04#8

/-- `ready` as the one bit READY of the response (R15, R60). -/
def readyBit (e : Engine) : BitVec 1 := BitVec.ofBool e.ready

/-- The response word `{0, cur, 0, ready, CODE}` of R60, from the state after the command. -/
def responseWord (code : StatusCode) (e : Engine) : Word :=
  0#9 ++ e.cur ++ 0#7 ++ readyBit e ++ code.value

end Sys2Proof.Machine
end

