-- ==== Sys2Proof/Machine/Operands.lean ====
section
/-! DEFINITION. Where operands come from: the payload bytes on `din` and their division into key and nonce
(spec/30_encoding.md R54 to R56), and the conversions between words and bytes (41_block_generator.md R100,
R101). -/

namespace Sys2Proof.Machine

/-- LE32: four bytes to one word, `b0` the least significant (R100). -/
def le32 (b0 b1 b2 b3 : Byte) : Word := b3 ++ b2 ++ b1 ++ b0

/-- Byte `k` of SER32: bits `8k+7 : 8k` of the word (R101). -/
def serByte (w : Word) (k : Nat) : Byte := w.extractLsb' (8 * k) 8

/-- SER32: one word to four bytes, least significant first (R101). -/
def ser32 (w : Word) : Byte × Byte × Byte × Byte := (serByte w 0, serByte w 1, serByte w 2, serByte w 3)

/-- Byte `i` of a payload. A payload has the length its header announces, so the default is never read
(log entry 10). -/
def payloadByte (p : List Byte) (i : Nat) : Byte := p.getD i 0#8

/-- The key of an INIT with KLEN = 32: the first KLEN payload bytes (R55). -/
def keyOf (p : List Byte) : Key := Vector.ofFn fun i => payloadByte p i.val

/-- The nonce of an INIT with KLEN = 32 and NLEN = 8: the NLEN payload bytes after the key (R55). -/
def nonceOf (p : List Byte) : Nonce := Vector.ofFn fun i => payloadByte p (Config.keyBytes + i.val)

/-- Take exactly `n` bytes from the front of a stream, `none` when fewer are supplied (R51 (a), R54). -/
def takeBytes (n : Nat) (din : List Byte) : Option (List Byte × List Byte) :=
  if n ≤ din.length then some (din.take n, din.drop n) else none

end Sys2Proof.Machine
end

