-- ==== Sys2Proof/Machine/Ops.lean ====
section
/-! DEFINITION. The named operations every command is built from: the keystream buffer, the ports, what a command
leaves (its reply), error entry, and fetching what the host does next. -/

namespace Sys2Proof.Machine

/-! ## The keystream buffer (spec/20_memory.md R30, 00_scope.md R8) -/

/-- The byte an address holds; an unlisted address reads as 0 (log entry 8). -/
def Memory.lookup (a : Nat) : Memory → Byte
  | [] => 0#8
  | (c, v) :: m => if a = c then v else Memory.lookup a m

/-- `MemRead(a, 1)` (R8): the byte at `a`, `none` where no such address exists (R30: addresses 0 to 63). -/
def Memory.readByte (m : Memory) (a : Nat) : Option Byte :=
  if a < Config.blockBytes then some (Memory.lookup a m) else none

/-- `MemWrite(0, 64, v)` (R8), the only write to the buffer any rule makes: all 64 bytes at once (R30), so the
result does not depend on the old contents. Zero bytes are not listed. -/
def Memory.ofBlock (v : Block) : Memory :=
  (List.finRange 64).filterMap fun j => if v[j.val] = 0#8 then none else some (j.val, v[j.val])

/-- The canonical form: addresses strictly rising and below 64, and no entry equal to what an unlisted address
reads as. -/
def Memory.wf (m : Memory) : Bool :=
  decide (m.Pairwise fun x y => x.1 < y.1) && m.all fun c => decide (c.1 < Config.blockBytes) && decide (c.2 ≠ 0#8)

/-! ## The engine's registers -/

/-- The 64-bit block counter `s[13] * 2^32 + s[12]` (10_state.md R12). -/
def Engine.counter (e : Engine) : Nat := e.s[13].toNat * 2 ^ 32 + e.s[12].toNat

/-- The position in the keystream, `ctr * 64 + cur` (10_state.md R14). -/
def Engine.position (e : Engine) : Nat := e.counter * 64 + e.cur.toNat

/-! ## The ports -/

/-- The state with another engine. -/
def State.setEng (e : Engine) (s : State) : State := { s with eng := e }

/-- The state with other host actions pending. -/
def State.setCmd (acts : List HostAct) (s : State) : State := { s with ports := { s.ports with cmd := acts } }

/-- The state with other bytes supplied on `din`. -/
def State.setDin (bytes : List Byte) (s : State) : State := { s with ports := { s.ports with din := bytes } }

/-- The host takes further outputs, in order (20_memory.md R44). -/
def State.send (outs : List PortOut) (s : State) : State :=
  { s with ports := { s.ports with out := s.ports.out ++ outs } }

/-- A free value has been drawn (log entry 5). -/
def State.countDraw (s : State) : State := { s with draws := s.draws + 1 }

/-! ## Command, reply, response -/

/-- What a command leaves and sends: the engine after it, its `dout` bytes in order, its status code
(70_reset_and_hazards.md R182). -/
structure Reply where
  eng : Engine
  dout : List Byte
  code : StatusCode
deriving DecidableEq, Repr

/-- Error entry (60_exceptions.md R156): no element of state written, no `dout` byte, only a code to report.
Nothing is saved and control goes nowhere, so there is no return operation (R157). -/
def raiseError (code : StatusCode) (e : Engine) : Reply := { eng := e, dout := [], code := code }

/-- The outputs of a command in the order the host sees them: its `dout` bytes, then exactly one response word
from the state after the command (20_memory.md R44, 30_encoding.md R51 (c), R60). -/
def Reply.outputs (r : Reply) : List PortOut := r.dout.map .dout ++ [.rsp (responseWord r.code r.eng)]

/-- Carry one command from payload to response (R51): take exactly `n` payload bytes whatever becomes of the
command (R54), run `run` on them, keep the engine it leaves and send its outputs. -/
def conclude (n : Nat) (run : List Byte → Engine → Option Reply) (s : State) :
    Host.Outcome State Fault Refusal :=
  match takeBytes n s.ports.din with
  | none => .fault .waitingForPayload
  | some (p, rest) =>
    match run p s.eng with
    | none => .fault .noSuchBufferByte
    | some r => .next (((s.setDin rest).setEng r.eng).send r.outputs)

/-! ## Fetching what the host does next -/

/-- What the machine is about to do, with the state in which it does it. -/
inductive Turn where
  /-- the host does nothing: the block stays as it is (R182 "the block does nothing between commands") -/
  | idle
  /-- a reset cycle -/
  | reset (s : State)
  /-- a command that a reset cuts short -/
  | cut (h : Word) (s : State)
  /-- a command that runs to its end -/
  | run (h : Word) (s : State)
deriving DecidableEq, Repr

/-- Take the host's next action off the list. A header whose payload is not supplied waits, and a reset cycle
that comes next ends it (R179); with no reset next, the command is run and stops for want of payload. -/
def takeTurn (s : State) : Turn :=
  match s.ports.cmd with
  | [] => .idle
  | .resetCycle :: rest => .reset (s.setCmd rest)
  | .commandThenReset h :: rest => .cut h (s.setCmd rest)
  | .command h :: .resetCycle :: rest =>
    if payloadLen h ≤ s.ports.din.length then .run h (s.setCmd (.resetCycle :: rest))
    else .cut h (s.setCmd rest)
  | .command h :: rest => .run h (s.setCmd rest)

/-- The low `n` bytes of a number, least significant first. -/
def bytesOfNat : Nat → Nat → List Byte
  | 0, _ => []
  | n + 1, v => BitVec.ofNat 8 v :: bytesOfNat n (v / 256)

/-- The host issues header `h` as its next action and supplies `payload` ahead of what it supplied already. -/
def State.offer (h : Word) (payload : List Byte) (s : State) : State :=
  { s with ports := { s.ports with cmd := .command h :: s.ports.cmd, din := payload ++ s.ports.din } }

end Sys2Proof.Machine
end

