-- ==== Sys2Proof/Machine/Transform.lean ====
section
/-! DEFINITION. The Core Transform, block `chacha_core` (spec/40_core_transform.md R80 to R93): pure functions from
the word operations outward to CORE. -/

namespace Sys2Proof.Machine

/-- ADD32: sum modulo 2^32, the carry discarded (R80). -/
def add32 (a b : Word) : Word := a + b

/-- XOR32: bitwise exclusive-or (R81). -/
def xor32 (a b : Word) : Word := a ^^^ b

/-- ROTL32: `((x << n) mod 2^32) + (x >> (32 - n))` for 1 <= n <= 31 (R82). The formula gives `x` for `n = 0` and
for `n >= 32`, which no rule uses (log entry 11). -/
def rotl32 (x : Word) (n : Nat) : Word := (x <<< n) + (x >>> (32 - n))

/-- QR, the quarter-round: the four lines of R83 in order, each using the values left by the lines before it. -/
def qr (a b c d : Word) : Word × Word × Word × Word :=
  let a := add32 a b
  let d := rotl32 (xor32 d a) 16
  let c := add32 c d
  let b := rotl32 (xor32 b c) 12
  let a := add32 a b
  let d := rotl32 (xor32 d a) 8
  let c := add32 c d
  let b := rotl32 (xor32 b c) 7
  (a, b, c, d)

/-- Four word indices in the roles a, b, c, d of the quarter-round (R84). -/
structure WordGroup where
  a : Fin 16
  b : Fin 16
  c : Fin 16
  d : Fin 16
deriving DecidableEq, Repr

/-- The quarter-round of the four words of `x` that a group names (R84). -/
def qrOf (x : Words) (g : WordGroup) : Word × Word × Word × Word := qr x[g.a] x[g.b] x[g.c] x[g.d]

/-- `y` with the four words of a group replaced (R84). -/
def putGroup (y : Words) (g : WordGroup) (q : Word × Word × Word × Word) : Words :=
  (((y.set g.a q.1).set g.b q.2.1).set g.c q.2.2.1).set g.d q.2.2.2

/-- QRAT: the quarter-round in place at four distinct indices, every other word kept (R84). -/
def qrAt (x : Words) (g : WordGroup) : Words := putGroup x g (qrOf x g)

/-- The four column groups (R85). -/
def columnGroups : List WordGroup := [⟨0, 4, 8, 12⟩, ⟨1, 5, 9, 13⟩, ⟨2, 6, 10, 14⟩, ⟨3, 7, 11, 15⟩]

/-- The four diagonal groups (R86). -/
def diagonalGroups : List WordGroup := [⟨0, 5, 10, 15⟩, ⟨1, 6, 11, 12⟩, ⟨2, 7, 8, 13⟩, ⟨3, 4, 9, 14⟩]

/-- COLROUND (R85). -/
def colRound (x : Words) : Words := columnGroups.foldl qrAt x

/-- DIAGROUND (R86). -/
def diagRound (x : Words) : Words := diagonalGroups.foldl qrAt x

/-- DOUBLEROUND: the column round first, then the diagonal round (R87). -/
def doubleRound (x : Words) : Words := diagRound (colRound x)

/-- `n` double rounds in succession (R88). -/
def mixRounds : Nat → Words → Words
  | 0, x => x
  | n + 1, x => mixRounds n (doubleRound x)

/-- MIX20: ten double rounds (R88). -/
def mix20 (x : Words) : Words := mixRounds Config.doubleRounds x

/-- CORE: MIX20 and the word-wise feed-forward (R90). -/
def core (input : Words) : Words := Vector.zipWith add32 (mix20 input) input

/-- Some quarter-rounds of one round evaluated at the same time: every one reads the words `x` as they were before
(R93). -/
def qrTogether (x : Words) (gs : List WordGroup) : Words := gs.foldl (fun y g => putGroup y g (qrOf x g)) x

/-- A round evaluated `p` quarter-rounds at a time, CORE_PARALLELISM `p` (R93), on a list of at most `fuel` groups. -/
def roundByLanes (p : Nat) : Nat → List WordGroup → Words → Words
  | 0, _, x => x
  | fuel + 1, gs, x => roundByLanes p fuel (gs.drop p) (qrTogether x (gs.take p))

end Sys2Proof.Machine
end

