-- ==== Sys2Proof/Machine/BlockGen.lean ====
section
/-! DEFINITION. The block generator and the counter, block `chacha_block_generator` (spec/41_block_generator.md
R103 to R112). -/

namespace Sys2Proof.Machine

/-- SERIALIZE: sixteen words to 64 bytes, `B[j]` is byte `j mod 4` of word `j div 4` (R103). -/
def serialize (out : Words) : Block :=
  Vector.ofFn fun j => serByte (out[j.val / 4]'(by omega)) (j.val % 4)

/-- Key word `i`, `LE32(key[4i], key[4i+1], key[4i+2], key[4i+3])` (R104). -/
def keyWord (key : Key) (i : Fin 8) : Word :=
  le32 (key[4 * i.val]'(by omega)) (key[4 * i.val + 1]'(by omega)) (key[4 * i.val + 2]'(by omega))
    (key[4 * i.val + 3]'(by omega))

/-- Nonce word `i`, `LE32(nonce[4i], nonce[4i+1], nonce[4i+2], nonce[4i+3])` (R104). -/
def nonceWord (nonce : Nonce) (i : Fin 2) : Word :=
  le32 (nonce[4 * i.val]'(by omega)) (nonce[4 * i.val + 1]'(by omega)) (nonce[4 * i.val + 2]'(by omega))
    (nonce[4 * i.val + 3]'(by omega))

/-- The state layout of R10 and R104 with the counter at given halves: constants, key, counter low and high,
nonce. -/
def layout (key : Key) (nonce : Nonce) (low high : Word) : Words :=
  #v[0x61707865#32, 0x3320646e#32, 0x79622d32#32, 0x6b206574#32,
    keyWord key 0, keyWord key 1, keyWord key 2, keyWord key 3,
    keyWord key 4, keyWord key 5, keyWord key 6, keyWord key 7,
    low, high, nonceWord nonce 0, nonceWord nonce 1]

/-- LOADSTATE: the initial CipherState, the counter at 0 (R104). -/
def loadState (key : Key) (nonce : Nonce) : Words := layout key nonce 0#32 0#32

/-- BLOCKGEN_bytes: `SERIALIZE(CORE(t))` (R105). -/
def blockGenBytes (t : Words) : Block := serialize (core t)

/-- Block(key, nonce, n): keystream block number `n`, for `n < 2^64` (R106). -/
def keystreamBlock (key : Key) (nonce : Nonce) (n : Nat) : Block :=
  blockGenBytes (layout key nonce (BitVec.ofNat 32 (n % 2 ^ 32)) (BitVec.ofNat 32 (n / 2 ^ 32)))

/-- Keystream byte `p` of a key and nonce: the concatenated blocks, periodic with period 2^70 bytes (R106). -/
def keystreamByte (key : Key) (nonce : Nonce) (p : Nat) : Byte :=
  (keystreamBlock key nonce ((p / 64) % 2 ^ 64))[p % 64]'(Nat.mod_lt _ (by decide))

/-- BLOCKGEN: fill the buffer from the present CipherState; `s`, `cur` and `ready` untouched (R105). -/
def blockGen (e : Engine) : Engine := { e with buf := Memory.ofBlock (blockGenBytes e.s) }

/-- CTRINC: add 1 to `s[12]`; if that wraps to 0, add 1 to `s[13]`, which wraps silently (R110, R111). -/
def ctrInc (e : Engine) : Engine :=
  let low := add32 e.s[12] 1#32
  let high := if low = 0#32 then add32 e.s[13] 1#32 else e.s[13]
  { e with s := (e.s.set 12 low).set 13 high }

/-- REGEN: CTRINC, then BLOCKGEN, then `cur <- 0` (R112). -/
def regen (e : Engine) : Engine := { blockGen (ctrInc e) with cur := 0#7 }

end Sys2Proof.Machine
end

