-- ==== Sys2Proof/Machine/EngineCommands.lean ====
section
/-! DEFINITION. The commands INIT, APPLY, ERASE and the treatment of illegal headers
(spec/42_engine_commands.md R120 to R132). A `…Reply` is the command on the block's own state; an `exec…` is the
command at the ports, from payload to response. -/

namespace Sys2Proof.Machine

/-! ## INIT (R120 to R123) -/

/-- The engine a successful INIT builds, whatever was there before: LOADSTATE, BLOCKGEN, `cur <- 0`,
`ready <- 1` (R120, R122). -/
def construct (key : Key) (nonce : Nonce) (e : Engine) : Engine :=
  { blockGen { e with s := loadState key nonce } with cur := 0#7, ready := true }

/-- INIT: the key length is checked first, the nonce length second, before any state is written (R120, R121,
R123). -/
def initReply (klen nlen : Nat) (p : List Byte) (e : Engine) : Reply :=
  if klen ≠ Config.keyBytes then raiseError .errKeyLen e
  else if nlen ≠ Config.nonceBytes then raiseError .errNonceLen e
  else { eng := construct (keyOf p) (nonceOf p) e, dout := [], code := .ok }

/-- INIT at the ports: KLEN + NLEN payload bytes (R54, R120). -/
def execInit (klen nlen : Nat) (s : State) : Host.Outcome State Fault Refusal :=
  conclude (klen + nlen) (fun p e => some (initReply klen nlen p e)) s

/-! ## APPLY (R124 to R127) -/

/-- STEP: one source byte to one result byte; the cursor advances, and reaching 64 regenerates at once (R126).
`none` where `cur` addresses no buffer byte, outside STEP's precondition `cur <= 63`. -/
def stepByte (b : Byte) (e : Engine) : Option (Engine × Byte) :=
  match Memory.readByte e.buf e.cur.toNat with
  | none => none
  | some k =>
    let e' : Engine := { e with cur := e.cur + 1#7 }
    some (if e'.cur = 64#7 then regen e' else e', b ^^^ k)

/-- STEP on each source byte, strictly in order, the result bytes in the same order (R124). -/
def applyBytes : List Byte → Engine → Option (Engine × List Byte)
  | [], e => some (e, [])
  | b :: src, e =>
    match stepByte b e with
    | none => none
    | some (e', d) =>
      match applyBytes src e' with
      | none => none
      | some (e'', dst) => some (e'', d :: dst)

/-- APPLY: refused with NotReady when `ready = 0`, otherwise a fold of STEP over the source bytes (R124, R125). -/
def applyReply (src : List Byte) (e : Engine) : Option Reply :=
  if e.ready = false then some (raiseError .errNotReady e)
  else
    match applyBytes src e with
    | none => none
    | some (e', dst) => some { eng := e', dout := dst, code := .ok }

/-- APPLY at the ports: LEN payload bytes (R54, R124). -/
def execApply (len : Nat) (s : State) : Host.Outcome State Fault Refusal := conclude len applyReply s

/-! ## ERASE (R130, R131) -/

/-- Every state element to zero: 16 words, 64 buffer bytes, cursor, `ready` (R130). -/
def eraseEngine (e : Engine) : Engine :=
  { e with s := Vector.replicate 16 0#32, buf := Memory.ofBlock (Vector.replicate 64 0#8), cur := 0#7, ready := false }

/-- ERASE: legal in every state, always succeeds (R130, R131). -/
def eraseReply (e : Engine) : Reply := { eng := eraseEngine e, dout := [], code := .ok }

/-- ERASE at the ports: no payload (R54, R130). -/
def execErase (s : State) : Host.Outcome State Fault Refusal := conclude 0 (fun _ e => some (eraseReply e)) s

/-! ## Illegal headers (R57, R132) -/

/-- ILLEGAL: nothing written, nothing emitted, ERR_ILLEGAL (R132). -/
def illegalReply (e : Engine) : Reply := raiseError .errIllegal e

/-- ILLEGAL at the ports: the header's `payload_len` bytes are taken and discarded (R57, R132). -/
def execIllegal (n : Nat) (s : State) : Host.Outcome State Fault Refusal :=
  conclude n (fun _ e => some (illegalReply e)) s

/-! ## A command as a function of state, header and payload (70_reset_and_hazards.md R182) -/

/-- The command step of R182, by the dispatch of R134: the reply to header `h` with payload `p`; `none` only where
APPLY finds `cur` above 63. -/
def commandReply (h : Word) (p : List Byte) (e : Engine) : Option Reply :=
  match decode h with
  | .instr (.init klen nlen) => some (initReply klen nlen p e)
  | .instr (.apply _) => applyReply p e
  | .instr .erase => some (eraseReply e)
  | .illegal _ => some (illegalReply e)

end Sys2Proof.Machine
end

