-- ==== Sys2Proof/Machine/Dispatch.lean ====
section
/-! DEFINITION. Dispatch: one arm per command (spec/42_engine_commands.md R134). -/

namespace Sys2Proof.Machine

def exec (i : Instr) (s : State) : Host.Outcome State Fault Refusal :=
  match i with
  | .init klen nlen => Sys2Proof.Machine.execInit klen nlen s
  | .apply len => Sys2Proof.Machine.execApply len s
  | .erase => Sys2Proof.Machine.execErase s

end Sys2Proof.Machine
end

