-- ==== Sys2Proof/Machine/HardReset.lean ====
section
/-! DEFINITION. Hardware reset, between commands and during one (spec/70_reset_and_hazards.md R170 to R172,
R179). -/

namespace Sys2Proof.Machine

/-- A reset cycle on the block's state (R171). -/
def resetEngine (e : Engine) : Engine :=
  { e with s := Vector.replicate 16 0#32, buf := Memory.ofBlock (Vector.replicate 64 0#8), cur := 0#7, ready := false }

/-- A reset cycle between commands: every state element to its reset value, no response (R171, R182). -/
def hwReset (s : State) : State := s.setEng (resetEngine s.eng)

/-- The result bytes the block can have produced for header `h` once it has taken the payload bytes `p`: those of
an APPLY that is not refused, none otherwise (30_encoding.md R51 (b)). -/
def producedBytes (h : Word) (p : List Byte) (e : Engine) : Option (List Byte) :=
  match decode h with
  | .instr (.apply _) =>
    if e.ready = false then some []
    else
      match applyBytes p e with
      | none => none
      | some (_, dst) => some dst
  | .instr (.init _ _) => some []
  | .instr .erase => some []
  | .illegal _ => some []

/-- How many payload bytes of a cut command are gone from `din`: a free value, at most the bytes announced and the
bytes supplied (R172; log entry 5). -/
def cutGoneBytes (h : Word) (s : State) : Nat :=
  min (Config.cutGone s.draws) (min (payloadLen h) s.ports.din.length)

/-- A command cut short by reset (R172): the block's state is reset, no response is issued, and the host has taken
a prefix of the result bytes, of a length that is a free value (log entry 5). Payload bytes not taken stay on `din`
(log entry 7). -/
def abandon (h : Word) (s : State) : Host.Outcome State Fault Refusal :=
  let gone := cutGoneBytes h s
  match producedBytes h (s.ports.din.take gone) s.eng with
  | none => .fault .noSuchBufferByte
  | some dst =>
    .next ((hwReset ((s.setDin (s.ports.din.drop gone)).send
      ((dst.take (Config.cutDelivered s.draws)).map .dout))).countDraw)

end Sys2Proof.Machine
end

