-- ==== Sys2Proof/Machine/Step.lean ====
section
/-! DEFINITION. One step: one command with its payload, outputs and response, or one reset
(spec/70_reset_and_hazards.md R182). -/

namespace Sys2Proof.Machine

/-- Execute a header (R134). An illegal header is no command of `Instr`; it is executed here (R57, R132; log
entry 13). -/
def runHeader (h : Word) (s : State) : Host.Outcome State Fault Refusal :=
  match decode h with
  | .instr i => exec i s
  | .illegal _ => execIllegal (payloadLen h) s

/-- One step of the machine (R182; log entries 2 to 4). -/
def step (s : State) : Host.Outcome State Fault Refusal :=
  match takeTurn s with
  | .idle => .next s
  | .reset s' => .next (hwReset s')
  | .cut h s' => abandon h s'
  | .run h s' => runHeader h s'

/-- `s` with the host issuing, as its next action, the header whose bits are the low 32 of `w`, and supplying that
header's payload: the bits of `w` above them, so zeros for a bare header (log entry 9). -/
def State.withFetchWord (s : State) (nbits w : Nat) : State :=
  let v := w % 2 ^ nbits
  let h : Word := BitVec.ofNat 32 v
  s.offer h (bytesOfNat (payloadLen h) (v / 2 ^ 32))

end Sys2Proof.Machine
end

