-- ==== Sys2Proof/Machine/CommandSyntax.lean ====
section
/-! DEFINITION. Commands as the spec's vectors and programs write them, and what the host then does at the ports
(spec/30_encoding.md R62, R63). Lines are data; their text is not parsed. -/

namespace Sys2Proof.Machine

/-- One line of a program (R62, R63). -/
inductive SourceLine where
  /-- `INIT key=.. nonce=..` -/
  | init (key nonce : List Byte)
  /-- `APPLY ..` -/
  | apply (src : List Byte)
  /-- `ERASE` -/
  | erase
  /-- `RAW <header> [<payload>]` -/
  | raw (h : Word) (payload : List Byte)
  /-- `CONSTRUCT key=.. nonce=..`, CC20's name of INIT -/
  | construct (key nonce : List Byte)
  /-- `RESET`, CC20's name of ERASE; not the hardware reset -/
  | reset
  /-- `KEYSTREAM n` -/
  | keystream (n : Nat)
  /-- `ENCRYPT ..` -/
  | encrypt (src : List Byte)
  /-- `DECRYPT ..` -/
  | decrypt (src : List Byte)
  /-- `HWRESET`, one cycle of `rst = 1`; not a command -/
  | hwreset
deriving DecidableEq, Repr

/-- The expansion of the pseudo-commands (R63); every other line stands for itself. -/
def SourceLine.expand : SourceLine → SourceLine
  | .construct key nonce => .init key nonce
  | .reset => .erase
  | .keystream n => .apply (List.replicate n 0#8)
  | .encrypt src => .apply src
  | .decrypt src => .apply src
  | .init key nonce => .init key nonce
  | .apply src => .apply src
  | .erase => .erase
  | .raw h payload => .raw h payload
  | .hwreset => .hwreset

/-- What the host does for an expanded line: the header or reset cycle, and the payload on `din`; the length fields
count the bytes given (R62). A line with more bytes than its length field can hold (a key or nonce above 255, source
bytes above 16,777,215), on which R62 is silent, gets a header with the count reduced modulo 2^8 or 2^24, and the bytes
beyond it stay on `din` for the next command: DESIGN CHOICE, log entry 17. -/
def SourceLine.wire (line : SourceLine) : HostAct × List Byte :=
  match line.expand with
  | .init key nonce => (.command (encode (.init key.length nonce.length)), key ++ nonce)
  | .apply src => (.command (encode (.apply src.length)), src)
  | .erase => (.command (encode .erase), [])
  | .raw h payload => (.command h, payload)
  | .hwreset => (.resetCycle, [])
  | .construct key nonce => (.command (encode (.init key.length nonce.length)), key ++ nonce)
  | .reset => (.command (encode .erase), [])
  | .keystream n => (.command (encode (.apply n)), List.replicate n 0#8)
  | .encrypt src => (.command (encode (.apply src.length)), src)
  | .decrypt src => (.command (encode (.apply src.length)), src)

/-- The host is to carry out a program after what it does already: the start of a run (70_reset_and_hazards.md
R183; log entry 9). The bytes of all lines make one `din` stream. So a RAW line whose payload is not as long as its
header announces, on which R62 is silent, takes bytes of later lines (those after an HWRESET among them) when it is
short, and leaves its excess for the next command when it is long: DESIGN CHOICE, log entry 18. -/
def State.load (program : List SourceLine) (s : State) : State :=
  { s with ports := { s.ports with
      cmd := s.ports.cmd ++ program.map fun line => line.wire.1
      din := s.ports.din ++ program.flatMap fun line => line.wire.2 } }

end Sys2Proof.Machine
end

