-- ==== Sys2Proof/Machine/Wires.lean ====
section
/-! DEFINITION. The 512-bit interfaces of the two inner blocks (spec/30_encoding.md R50): internal wires, not visible
to the host. -/

namespace Sys2Proof.Machine

/-- Sixteen words on 512 wires, word `i` at bits `32i+31 : 32i` (R50). -/
def packWords (x : Words) : BitVec 512 :=
  (List.finRange 16).foldl (fun (wires : BitVec 512) i => wires ||| (BitVec.setWidth 512 x[i.val] <<< (32 * i.val : Nat))) 0#512

/-- The words on 512 wires (R50). -/
def unpackWords (wires : BitVec 512) : Words := Vector.ofFn fun i => wires.extractLsb' (32 * i.val) 32

/-- A block on 512 wires, byte `j` at bits `8j+7 : 8j` (R50). -/
def packBlock (v : Block) : BitVec 512 :=
  (List.finRange 64).foldl (fun (wires : BitVec 512) j => wires ||| (BitVec.setWidth 512 v[j.val] <<< (8 * j.val : Nat))) 0#512

/-- `chacha_core`: `state_in` to `block_out`, computing CORE (R50, 40_core_transform.md R90). -/
def coreWires (stateIn : BitVec 512) : BitVec 512 := packWords (core (unpackWords stateIn))

/-- `chacha_block_generator`: the same input to 512 bits of keystream, computing BLOCKGEN_bytes (R50,
41_block_generator.md R105). -/
def generatorWires (stateIn : BitVec 512) : BitVec 512 := packBlock (blockGenBytes (unpackWords stateIn))

end Sys2Proof.Machine
end

