-- ==== Sys2Proof/Machine/Transfers.lean ====
section
/-! DEFINITION. The ports one transfer at a time: the sequencing of spec/30_encoding.md R51 with the host free to
delay any transfer, and reset at any moment (70_reset_and_hazards.md R172, R179). A finer view than `step`; it has
no notion of a cycle either. -/

namespace Sys2Proof.Machine

/-- A transfer on a channel (`valid` and `ready` both 1, R50), or a reset cycle. -/
inductive Transfer where
  /-- the block accepts a header -/
  | cmd (h : Word)
  /-- the block takes a payload byte -/
  | din (b : Byte)
  /-- the host takes the next result byte -/
  | dout
  /-- the host takes the response word -/
  | rsp
  /-- a reset cycle -/
  | rst
deriving DecidableEq, Repr

/-- Whether a command is in execution, and how far it is. -/
inductive Phase where
  /-- between two commands -/
  | atRest
  /-- executing header `h`, its payload not complete: the payload bytes taken so far, and the result bytes produced
  and not yet taken -/
  | busy (h : Word) (taken owed : List Byte)
  /-- the payload is complete and the command has done all its work: the code to answer with, and the result bytes
  not yet taken -/
  | answering (code : StatusCode) (owed : List Byte)
deriving DecidableEq, Repr

/-- The block at its ports: its state, its phase, and what the host has taken. -/
structure PortState where
  eng : Engine
  phase : Phase
  out : List PortOut
deriving DecidableEq, Repr

/-- A payload byte arrives (R51 (a), (b); log entry 14): an APPLY that is not refused processes it by STEP and owes one result
byte more; every other command only collects it. -/
def acceptByte (h : Word) (b : Byte) (e : Engine) : Option (Engine × List Byte) :=
  match decode h with
  | .instr (.apply _) =>
    if e.ready = false then some (e, [])
    else
      match stepByte b e with
      | none => none
      | some (e', d) => some (e', [d])
  | .instr (.init _ _) => some (e, [])
  | .instr .erase => some (e, [])
  | .illegal _ => some (e, [])

/-- What a command leaves and reports once its payload has been taken. An APPLY has done its work byte by byte. -/
def finish (h : Word) (p : List Byte) (e : Engine) : Engine × StatusCode :=
  match decode h with
  | .instr (.init klen nlen) => ((initReply klen nlen p e).eng, (initReply klen nlen p e).code)
  | .instr (.apply _) => (e, if e.ready = false then .errNotReady else .ok)
  | .instr .erase => ((eraseReply e).eng, (eraseReply e).code)
  | .illegal _ => ((illegalReply e).eng, (illegalReply e).code)

/-- Once the payload is complete a command does the rest of its work, so before its response can be taken (R51 (c),
42_engine_commands.md R120, R130; log entry 14). -/
def settle (h : Word) (taken owed : List Byte) (p : PortState) : PortState :=
  if taken.length = payloadLen h then
    { p with eng := (finish h taken p.eng).1, phase := .answering (finish h taken p.eng).2 owed }
  else { p with phase := .busy h taken owed }

/-- One transfer, `none` where R51 does not allow it: a header only at rest, exactly `payload_len` payload bytes, a
result byte only when one is owed, the response after the last payload byte and the last result byte. Taking a result
byte or the response has no side effect on the engine (20_memory.md R41). -/
def transfer (t : Transfer) (p : PortState) : Option PortState :=
  match t, p.phase with
  | .rst, _ => some { eng := resetEngine p.eng, phase := .atRest, out := p.out }
  | .cmd h, .atRest => some (settle h [] [] p)
  | .din b, .busy h taken owed =>
    if taken.length < payloadLen h then
      match acceptByte h b p.eng with
      | none => none
      | some (e, ds) => some (settle h (taken ++ [b]) (owed ++ ds) { p with eng := e })
    else none
  | .dout, .busy h taken (d :: owed) => some { p with phase := .busy h taken owed, out := p.out ++ [.dout d] }
  | .dout, .answering code (d :: owed) => some { p with phase := .answering code owed, out := p.out ++ [.dout d] }
  | .rsp, .answering code [] => some { p with phase := .atRest, out := p.out ++ [.rsp (responseWord code p.eng)] }
  | .cmd _, .busy _ _ _ => none
  | .cmd _, .answering _ _ => none
  | .din _, .atRest => none
  | .din _, .answering _ _ => none
  | .dout, .atRest => none
  | .dout, .busy _ _ [] => none
  | .dout, .answering _ [] => none
  | .rsp, .atRest => none
  | .rsp, .busy _ _ _ => none
  | .rsp, .answering _ (_ :: _) => none

/-- A sequence of transfers, `none` where one of them is not allowed. -/
def transfers : List Transfer → PortState → Option PortState
  | [], p => some p
  | t :: ts, p =>
    match transfer t p with
    | none => none
    | some p' => transfers ts p'

/-- The payload bytes of a sequence of transfers, in order. -/
def dinBytes : List Transfer → List Byte
  | [] => []
  | .din b :: ts => b :: dinBytes ts
  | .cmd _ :: ts => dinBytes ts
  | .dout :: ts => dinBytes ts
  | .rsp :: ts => dinBytes ts
  | .rst :: ts => dinBytes ts

/-- The transfers of one command after its header: payload bytes, result bytes and a response, no further header and
no reset. -/
def Transfer.ofCommand : Transfer → Bool
  | .cmd _ => false
  | .rst => false
  | .din _ => true
  | .dout => true
  | .rsp => true

end Sys2Proof.Machine
end

