-- ==== Sys2Proof/Safety.lean ====
section
/-! DEFINITION. What a legal state and a safe run are: the state invariants of spec/10_state.md R18 and R19, and a
host that supplies what it announces (70_reset_and_hazards.md R179, R184). -/

namespace Sys2Proof.Machine

/-- Words 0 to 3 hold the four constants (R10, R18). -/
abbrev Engine.ConstantsInPlace (e : Engine) : Prop :=
  e.s[0] = 0x61707865#32 ∧ e.s[1] = 0x3320646e#32 ∧ e.s[2] = 0x79622d32#32 ∧ e.s[3] = 0x6b206574#32

/-- A legal state of the block at rest: R18 while `ready = 1`, R19 while `ready = 0`. -/
abbrev Engine.Legal (e : Engine) : Prop :=
  if e.ready then
    e.ConstantsInPlace ∧ e.buf = Memory.ofBlock (blockGenBytes e.s) ∧ e.cur.toNat ≤ 63
  else e = Engine.erased

/-- Ready, with the cursor where STEP requires it (42_engine_commands.md R126). -/
abbrev Engine.CanApply (e : Engine) : Prop := e.ready = true ∧ e.cur.toNat ≤ 63

/-- The host has supplied the payload of its next command, if its next action is a command that is not cut by a reset
(R184 row 5). -/
abbrev State.PayloadSupplied (s : State) : Prop :=
  match s.ports.cmd with
  | .command h :: _ => payloadLen h ≤ s.ports.din.length
  | _ => True

/-- A step is safe when it does not stop. -/
def State.SafeStep (s : State) : Prop := ∃ t, step s = .next t

/-- Some number of steps lead from one state to the other. -/
inductive Reaches : State → State → Prop where
  | refl (s : State) : Reaches s s
  | tail {s t u : State} : Reaches s t → step t = .next u → Reaches s u

/-- The `dout` bytes of a transcript, in order. -/
def doutOf : List PortOut → List Byte
  | [] => []
  | .dout b :: outs => b :: doutOf outs
  | .rsp _ :: outs => doutOf outs

/-- The response words of a transcript, in order. -/
def rspOf : List PortOut → List Word
  | [] => []
  | .dout _ :: outs => rspOf outs
  | .rsp w :: outs => w :: rspOf outs

/-- Several APPLY commands in a row, the lengths given. -/
def applyRun : List Nat → State → Host.Outcome State Fault Refusal
  | [], s => .next s
  | n :: lens, s =>
    match exec (.apply n) s with
    | .next t => applyRun lens t
    | .fault r => .fault r
    | .refused r => .refused r

end Sys2Proof.Machine
end

