-- ==== Sys2Proof/Certificates/Slice0/Obligations.lean ====
section
/-! DEFINITION. The statements for the provers. Each docstring names what of spec/ it formalises; where a clause rests
on a choice of the model, it names the log entry. -/

open Sys2Proof Sys2Proof.Machine

/-! ## Headers -/

/-- The encoding examples of 30_encoding.md R64 and vectors V7.9, V7.10: what each header decodes as, and how many
payload bytes it announces. -/
def Obligations.HeaderExamplesDecodeAndCount : Prop :=
  (decode 0x00082001#32 = .instr (.init 32 8) ∧ payloadLen 0x00082001#32 = 40) ∧
  (decode 0x00081F01#32 = .instr (.init 31 8) ∧ payloadLen 0x00081F01#32 = 39) ∧
  (decode 0x00082101#32 = .instr (.init 33 8) ∧ payloadLen 0x00082101#32 = 41) ∧
  (decode 0x00072001#32 = .instr (.init 32 7) ∧ payloadLen 0x00072001#32 = 39) ∧
  (decode 0x00092001#32 = .instr (.init 32 9) ∧ payloadLen 0x00092001#32 = 41) ∧
  (decode 0x00000001#32 = .instr (.init 0 0) ∧ payloadLen 0x00000001#32 = 0) ∧
  (decode 0x00000002#32 = .instr (.apply 0) ∧ payloadLen 0x00000002#32 = 0) ∧
  (decode 0x00000102#32 = .instr (.apply 1) ∧ payloadLen 0x00000102#32 = 1) ∧
  (decode 0x00004002#32 = .instr (.apply 64) ∧ payloadLen 0x00004002#32 = 64) ∧
  (decode 0x12345602#32 = .instr (.apply 1193046) ∧ payloadLen 0x12345602#32 = 1193046) ∧
  (decode 0xFFFFFF02#32 = .instr (.apply 16777215) ∧ payloadLen 0xFFFFFF02#32 = 16777215) ∧
  (decode 0x00000003#32 = .instr .erase ∧ payloadLen 0x00000003#32 = 0) ∧
  (decode 0x00000000#32 = .illegal .unknownOpcode ∧ payloadLen 0x00000000#32 = 0) ∧
  (decode 0x00000004#32 = .illegal .unknownOpcode ∧ payloadLen 0x00000004#32 = 0) ∧
  (decode 0xFFFFFFFF#32 = .illegal .unknownOpcode ∧ payloadLen 0xFFFFFFFF#32 = 0) ∧
  (decode 0x00000103#32 = .illegal .reservedErase ∧ payloadLen 0x00000103#32 = 0) ∧
  (decode 0x01082001#32 = .illegal .reservedInit ∧ payloadLen 0x01082001#32 = 40)

/-- Every well-formed command is what its header decodes to: no bit of a length field is dropped
(30_encoding.md R52, R55, R56). -/
def Obligations.DecodeOfEncodeIsTheCommand : Prop :=
  ∀ i : Instr, i.wellFormed = true → decode (encode i) = .instr i

/-- Every header that decodes to a command is the one header of that command, and the command is well-formed
(30_encoding.md R52, R53): each command has exactly one encoding. -/
def Obligations.EncodeOfDecodeIsTheHeader : Prop :=
  ∀ (h : Word) (i : Instr), decode h = .instr i → i.wellFormed = true ∧ encode i = h

/-- The opcode map of R53: a header decodes to a row's command exactly when it selects the row, the rows are
disjoint, and a header that selects none is illegal. -/
def Obligations.HeaderSelectsRowOfItsCommand : Prop :=
  ∀ h : Word,
    (h &&& 0xFF0000FF#32 = 0x00000001#32 ↔ ∃ klen nlen, decode h = .instr (.init klen nlen)) ∧
    (h &&& 0x000000FF#32 = 0x00000002#32 ↔ ∃ len, decode h = .instr (.apply len)) ∧
    (h &&& 0xFFFFFFFF#32 = 0x00000003#32 ↔ decode h = .instr .erase) ∧
    ((initRow.selects h = false ∧ applyRow.selects h = false ∧ eraseRow.selects h = false) ↔
      ∃ why, decode h = .illegal why) ∧
    ¬(initRow.selects h = true ∧ applyRow.selects h = true) ∧
    ¬(initRow.selects h = true ∧ eraseRow.selects h = true) ∧
    ¬(applyRow.selects h = true ∧ eraseRow.selects h = true)

/-- R54: the payload count by header arithmetic, and the block takes exactly that many bytes off `din`, in order,
whatever the state and whatever becomes of the command. -/
def Obligations.PayloadTakenIsTheHeadersCount : Prop :=
  (∀ h : Word, payloadLen h =
    if h.toNat % 2 ^ 8 = 0x01 then h.toNat / 2 ^ 8 % 2 ^ 8 + h.toNat / 2 ^ 16 % 2 ^ 8
    else if h.toNat % 2 ^ 8 = 0x02 then h.toNat / 2 ^ 8 else 0) ∧
  ∀ (s t : State) (h : Word) (acts : List HostAct),
    s.ports.cmd = .command h :: acts → payloadLen h ≤ s.ports.din.length → step s = .next t →
    t.ports.din = s.ports.din.drop (payloadLen h) ∧ t.ports.cmd = acts

/-! ## The Core Transform -/

/-- R80: ADD32 is the sum modulo 2^32, commutative and associative, with its corner cases and example. -/
def Obligations.Add32IsSumModulo : Prop :=
  (∀ a b : Word, (add32 a b).toNat = (a.toNat + b.toNat) % 2 ^ 32) ∧
  (∀ a b : Word, add32 a b = add32 b a) ∧
  (∀ a b c : Word, add32 (add32 a b) c = add32 a (add32 b c)) ∧
  (∀ a : Word, add32 a 0#32 = a) ∧
  add32 0xFFFFFFFF#32 1#32 = 0#32 ∧
  add32 0xFFFFFFFF#32 0xFFFFFFFF#32 = 0xFFFFFFFE#32 ∧
  add32 0x11111111#32 0x01020304#32 = 0x12131415#32

/-- R82: ROTL32 by 1 to 31 is the sum of the two shifts, moves bit `i` to bit `(i + n) mod 32`, and has its corner
cases. -/
def Obligations.Rotl32MovesEveryBit : Prop :=
  (∀ (x : Word) (n : Nat), 1 ≤ n → n ≤ 31 →
    (rotl32 x n).toNat = (x.toNat * 2 ^ n) % 2 ^ 32 + x.toNat / 2 ^ (32 - n) ∧
    (∀ i, i < 32 → (rotl32 x n).getLsbD ((i + n) % 32) = x.getLsbD i) ∧
    rotl32 0#32 n = 0#32 ∧ rotl32 0xFFFFFFFF#32 n = 0xFFFFFFFF#32) ∧
  rotl32 0x80000000#32 1 = 0x00000001#32 ∧ rotl32 1#32 31 = 0x80000000#32

/-- R83, the four lines in order, on the integers the words stand for: sums modulo 2^32, exclusive-or, and rotation by
16, 12, 8 and 7. -/
def Obligations.QuarterRoundIsItsFourLines : Prop :=
  ∀ a b c d : Word,
    let rot (x n : Nat) : Nat := (x * 2 ^ n) % 2 ^ 32 + x / 2 ^ (32 - n)
    let a1 := (a.toNat + b.toNat) % 2 ^ 32
    let d1 := rot (d.toNat ^^^ a1) 16
    let c1 := (c.toNat + d1) % 2 ^ 32
    let b1 := rot (b.toNat ^^^ c1) 12
    let a2 := (a1 + b1) % 2 ^ 32
    let d2 := rot (d1 ^^^ a2) 8
    let c2 := (c1 + d2) % 2 ^ 32
    let b2 := rot (b1 ^^^ c2) 7
    qr a b c d = (BitVec.ofNat 32 a2, BitVec.ofNat 32 b2, BitVec.ofNat 32 c2, BitVec.ofNat 32 d2)

/-- The corner cases the spec derives for R83: QR is a bijection on 128 bits, and only the all-zero input gives the
all-zero output. -/
def Obligations.QuarterRoundIsBijective : Prop :=
  (Function.Bijective fun w : Word × Word × Word × Word => qr w.1 w.2.1 w.2.2.1 w.2.2.2) ∧
  ∀ a b c d : Word, qr a b c d = (0#32, 0#32, 0#32, 0#32) ↔ a = 0#32 ∧ b = 0#32 ∧ c = 0#32 ∧ d = 0#32

/-- R84: at four distinct indices QRAT puts the quarter-round of the four words, in the roles a, b, c, d, and keeps
every other word. -/
def Obligations.QuarterRoundInPlaceFrame : Prop :=
  ∀ (x : Words) (i j k l : Fin 16), [i, j, k, l].Nodup →
    ((qrAt x ⟨i, j, k, l⟩)[i], (qrAt x ⟨i, j, k, l⟩)[j], (qrAt x ⟨i, j, k, l⟩)[k], (qrAt x ⟨i, j, k, l⟩)[l]) =
      qr x[i] x[j] x[k] x[l] ∧
    ∀ m : Fin 16, m ∉ [i, j, k, l] → (qrAt x ⟨i, j, k, l⟩)[m] = x[m]

/-- The spec's derivation for R85, R86 and R93: the four quarter-rounds of a round may be taken in any order, and any
number of them at once (CORE_PARALLELISM 1 to 4), with the same result. -/
def Obligations.RoundOrderAndLanesDoNotMatter : Prop :=
  ∀ x : Words,
    (∀ gs : List WordGroup, gs.Perm columnGroups → gs.foldl qrAt x = colRound x) ∧
    (∀ gs : List WordGroup, gs.Perm diagonalGroups → gs.foldl qrAt x = diagRound x) ∧
    ∀ p, 1 ≤ p → p ≤ 4 →
      roundByLanes p 4 columnGroups x = colRound x ∧ roundByLanes p 4 diagonalGroups x = diagRound x

/-- R85 and R86 of the word groups: column lane `k` is words k, k+4, k+8, k+12, the diagonal lanes are those of R93,
each round's groups cover all 16 words once, and no diagonal group commutes with a column group. -/
def Obligations.RoundGroupsCoverTheMatrix : Prop :=
  (∀ k : Fin 4,
    columnGroups[k.val]? = some ⟨⟨k.val, by omega⟩, ⟨k.val + 4, by omega⟩, ⟨k.val + 8, by omega⟩, ⟨k.val + 12, by omega⟩⟩ ∧
    diagonalGroups[k.val]? = some ⟨⟨k.val, by omega⟩, ⟨(k.val + 1) % 4 + 4, by omega⟩,
      ⟨(k.val + 2) % 4 + 8, by omega⟩, ⟨(k.val + 3) % 4 + 12, by omega⟩⟩) ∧
  (columnGroups.flatMap fun g => [g.a, g.b, g.c, g.d]).Perm (List.finRange 16) ∧
  (diagonalGroups.flatMap fun g => [g.a, g.b, g.c, g.d]).Perm (List.finRange 16) ∧
  ∀ g ∈ columnGroups, ∀ g' ∈ diagonalGroups, ∃ x : Words, qrAt (qrAt x g) g' ≠ qrAt (qrAt x g') g

/-- R87 and R88: MIX20 is 80 quarter-rounds, ten times the four columns and then the four diagonals. -/
def Obligations.MixIsEightyQuarterRounds : Prop :=
  (∀ x : Words, mix20 x = (List.replicate 10 (columnGroups ++ diagonalGroups)).flatten.foldl qrAt x) ∧
  (List.replicate 10 (columnGroups ++ diagonalGroups)).flatten.length = 80 ∧
  ∀ x : Words, doubleRound x = diagRound (colRound x)

/-- The spec's derivations for R88 and R90: MIX20 is a bijection on 512 bits; it and CORE map zero to zero. -/
def Obligations.MixIsBijective : Prop :=
  Function.Bijective mix20 ∧ mix20 (Vector.replicate 16 0#32) = Vector.replicate 16 0#32 ∧
  core (Vector.replicate 16 0#32) = Vector.replicate 16 0#32

/-- R90: word by word, CORE is the mixed word plus the input word modulo 2^32, on every input. -/
def Obligations.CoreAddsItsInput : Prop :=
  ∀ (x : Words) (i : Fin 16), (core x)[i].toNat = ((mix20 x)[i].toNat + x[i].toNat) % 2 ^ 32

/-- R50: `chacha_core` takes and gives word `i` on wires 32i+31 : 32i; `chacha_block_generator` gives keystream byte
`j` on wires 8j+7 : 8j. -/
def Obligations.InnerBlockWireLayout : Prop :=
  ∀ x : Words,
    unpackWords (packWords x) = x ∧
    (∀ i : Fin 16, (coreWires (packWords x)).extractLsb' (32 * i.val) 32 = (core x)[i]) ∧
    ∀ j : Fin 64, (generatorWires (packWords x)).extractLsb' (8 * j.val) 8 = (blockGenBytes x)[j]

/-! ## Bytes, initial state, block generation, counter -/

/-- R100 and R101: LE32 weighs its bytes by powers of 2^8, lowest index least significant, and SER32 is its
inverse. -/
def Obligations.WordByteConversionIsLittleEndian : Prop :=
  (∀ b0 b1 b2 b3 : Byte,
    (le32 b0 b1 b2 b3).toNat = b0.toNat + b1.toNat * 2 ^ 8 + b2.toNat * 2 ^ 16 + b3.toNat * 2 ^ 24 ∧
    ser32 (le32 b0 b1 b2 b3) = (b0, b1, b2, b3)) ∧
  ∀ w : Word,
    ser32 w = (w.extractLsb' 0 8, w.extractLsb' 8 8, w.extractLsb' 16 8, w.extractLsb' 24 8) ∧
    le32 (ser32 w).1 (ser32 w).2.1 (ser32 w).2.2.1 (ser32 w).2.2.2 = w

/-- R103: SERIALIZE puts SER32 of word `w` at bytes 4w to 4w+3, that is `B[j] = (out[j div 4] >> 8(j mod 4)) mod
256`. -/
def Obligations.SerializeIsLittleEndianByWord : Prop :=
  ∀ x : Words,
    (∀ w : Fin 16, ((serialize x)[4 * w.val]'(by omega), (serialize x)[4 * w.val + 1]'(by omega),
      (serialize x)[4 * w.val + 2]'(by omega), (serialize x)[4 * w.val + 3]'(by omega)) = ser32 x[w]) ∧
    ∀ j : Fin 64, ((serialize x)[j]).toNat = ((x[j.val / 4]'(by omega)).toNat / 2 ^ (8 * (j.val % 4))) % 256

/-- R104 with R34: LOADSTATE word by word; key byte 4i+k is bits 8k+7 : 8k of word 4+i, nonce byte 4i+k of word 14+i;
the constants, and the counter at 0. -/
def Obligations.LoadStateLayout : Prop :=
  ∀ (key : Key) (nonce : Nonce),
    let t := loadState key nonce
    t[0] = 0x61707865#32 ∧ t[1] = 0x3320646e#32 ∧ t[2] = 0x79622d32#32 ∧ t[3] = 0x6b206574#32 ∧
    (∀ (i : Fin 8) (k : Fin 4),
      (t[4 + i.val]'(by omega)).extractLsb' (8 * k.val) 8 = key[4 * i.val + k.val]'(by omega)) ∧
    t[12] = 0#32 ∧ t[13] = 0#32 ∧
    ∀ (i : Fin 2) (k : Fin 4),
      (t[14 + i.val]'(by omega)).extractLsb' (8 * k.val) 8 = nonce[4 * i.val + k.val]'(by omega)

/-- R105: BLOCKGEN writes SERIALIZE(CORE(s)) to all 64 buffer bytes and touches nothing else; the buffer it leaves is
in canonical form. -/
def Obligations.BlockGenWritesOnlyTheBuffer : Prop :=
  ∀ e : Engine,
    (∀ a : Fin 64, Memory.readByte (blockGen e).buf a.val = some (serialize (core e.s))[a]) ∧
    (blockGen e).s = e.s ∧ (blockGen e).cur = e.cur ∧ (blockGen e).ready = e.ready ∧
    Memory.wf (blockGen e).buf = true

/-- R106: block `n` is BLOCKGEN_bytes of the loaded state with words 12 and 13 the low and high halves of `n`; the
keystream repeats after 2^70 bytes. -/
def Obligations.KeystreamBlockByCounter : Prop :=
  ∀ (key : Key) (nonce : Nonce),
    (∀ n, n < 2 ^ 64 → keystreamBlock key nonce n =
      blockGenBytes (((loadState key nonce).set 12 (BitVec.ofNat 32 (n % 2 ^ 32))).set 13
        (BitVec.ofNat 32 (n / 2 ^ 32)))) ∧
    ∀ p, keystreamByte key nonce p =
      (keystreamBlock key nonce (p / 64 % 2 ^ 64))[p % 64]'(Nat.mod_lt _ (by decide)) ∧
      keystreamByte key nonce (p + 2 ^ 70) = keystreamByte key nonce p

/-- R110: CTRINC adds 1 to word 12 and carries into word 13 when that wraps to 0; as one number it adds 1 modulo 2^64;
nothing else changes. -/
def Obligations.CounterIncrementsAsOneNumber : Prop :=
  ∀ e : Engine,
    (ctrInc e).s[12] = add32 e.s[12] 1#32 ∧
    (ctrInc e).s[13] = (if (ctrInc e).s[12] = 0#32 then add32 e.s[13] 1#32 else e.s[13]) ∧
    (ctrInc e).counter = (e.counter + 1) % 2 ^ 64 ∧
    (∀ i : Fin 16, i ≠ 12 → i ≠ 13 → (ctrInc e).s[i] = e.s[i]) ∧
    (ctrInc e).buf = e.buf ∧ (ctrInc e).cur = e.cur ∧ (ctrInc e).ready = e.ready

/-- R112: REGEN advances the counter first, fills the buffer with the block of the new counter, and sets the cursor to
0; constants, key, nonce and `ready` are kept. -/
def Obligations.RegenAdvancesThenGenerates : Prop :=
  ∀ e : Engine,
    (regen e).counter = (e.counter + 1) % 2 ^ 64 ∧
    (∀ i : Fin 16, i ≠ 12 → i ≠ 13 → (regen e).s[i] = e.s[i]) ∧
    (∀ a : Fin 64, Memory.readByte (regen e).buf a.val = some (blockGenBytes (regen e).s)[a]) ∧
    (regen e).cur = 0#7 ∧ (regen e).ready = e.ready

/-! ## INIT -/

/-- R122: from any state, INIT with a 32-byte key and an 8-byte nonce answers a next state with the loaded
CipherState, counter 0, block 0 in the buffer, cursor 0, `ready` 1; its payload is taken and its only output is the
response 0x00000100. -/
def Obligations.InitBuildsTheEngine : Prop :=
  ∀ (s : State) (key : Key) (nonce : Nonce) (rest : List Byte),
    s.ports.din = key.toList ++ nonce.toList ++ rest →
    ∃ t, exec (.init 32 8) s = .next t ∧
      t.eng.s = loadState key nonce ∧ t.eng.counter = 0 ∧
      (∀ a : Fin 64, Memory.readByte t.eng.buf a.val = some (keystreamBlock key nonce 0)[a]) ∧
      Memory.wf t.eng.buf = true ∧ t.eng.cur = 0#7 ∧ t.eng.ready = true ∧
      t.ports = { cmd := s.ports.cmd, din := rest, out := s.ports.out ++ [.rsp 0x00000100#32] } ∧
      t.draws = s.draws

/-- R121, R123 and R155: INIT with a wrong length answers a next state in which the block is exactly as before, in any
state, whatever the key and nonce bytes; the key length is checked before the nonce length. -/
def Obligations.InitWrongLengthChangesNothing : Prop :=
  ∀ (s : State) (klen nlen : Nat), klen + nlen ≤ s.ports.din.length → klen ≠ 32 ∨ nlen ≠ 8 →
    exec (.init klen nlen) s = .next
      { eng := s.eng
        ports := { cmd := s.ports.cmd, din := s.ports.din.drop (klen + nlen)
                   out := s.ports.out ++
                    [.rsp (responseWord (if klen ≠ 32 then .errKeyLen else .errNonceLen) s.eng)] }
        draws := s.draws }

/-! ## APPLY -/

/-- R126: STEP, at every cursor its precondition allows. The result byte is the source byte XOR `buf[cur]`; below 63
only the cursor moves; at 63 the block is regenerated at once; the precondition holds again. -/
def Obligations.StepByteXorsAndRegenerates : Prop :=
  ∀ (b : Byte) (e : Engine), e.cur.toNat ≤ 63 →
    ∃ k e', Memory.readByte e.buf e.cur.toNat = some k ∧ stepByte b e = some (e', b ^^^ k) ∧
      (e.cur.toNat < 63 → e' = { e with cur := BitVec.ofNat 7 (e.cur.toNat + 1) }) ∧
      (e.cur.toNat = 63 → e' = regen { e with cur := 64#7 }) ∧
      e'.ready = e.ready ∧ e'.cur.toNat ≤ 63

/-- R124: APPLY answers a next state. On a ready engine: STEP on every source byte strictly in order, one result byte for
each, then the response OK; `ready` is not written. Otherwise the error NotReady, nothing written, nothing emitted. The
rest of `din` and everything else outside the engine is kept. -/
def Obligations.ApplyStepsEveryByteInOrder : Prop :=
  ∀ (s : State) (len : Nat), len ≤ s.ports.din.length →
    (s.eng.CanApply →
      ∃ (es : Nat → Engine) (dst : List Byte),
        es 0 = s.eng ∧ dst.length = len ∧
        (∀ i, i < len → stepByte (s.ports.din.getD i 0#8) (es i) = some (es (i + 1), dst.getD i 0#8)) ∧
        (es len).ready = true ∧
        exec (.apply len) s = .next
          { eng := es len
            ports := { cmd := s.ports.cmd, din := s.ports.din.drop len
                       out := s.ports.out ++ dst.map .dout ++ [.rsp (responseWord .ok (es len))] }
            draws := s.draws }) ∧
    (s.eng.ready = false →
      exec (.apply len) s = .next
        { eng := s.eng
          ports := { cmd := s.ports.cmd, din := s.ports.din.drop len
                     out := s.ports.out ++ [.rsp (responseWord .errNotReady s.eng)] }
          draws := s.draws })

/-- R125: APPLY with `ready = 0` answers a next state in which the block is exactly as before; its source bytes are
taken and discarded, nothing is emitted, the code is ERR_NOT_READY (so 0x00000003 in the erased state). -/
def Obligations.ApplyNotReadyIsRefusedWithoutEffect : Prop :=
  ∀ (s : State) (len : Nat), s.eng.ready = false → len ≤ s.ports.din.length →
    exec (.apply len) s = .next
      { eng := s.eng
        ports := { cmd := s.ports.cmd, din := s.ports.din.drop len
                   out := s.ports.out ++ [.rsp (responseWord .errNotReady s.eng)] }
        draws := s.draws } ∧
    (s.eng.cur = 0#7 → responseWord .errNotReady s.eng = 0x00000003#32)

/-- The frame of APPLY (R10, R11, R124, R126): constants, key and nonce words, `ready`, the pending host actions and
the draw count are unchanged, outputs are only appended; where no regeneration is due (cur + LEN below 64) the counter
and every buffer byte are unchanged too. -/
def Obligations.ApplyFrame : Prop :=
  ∀ (s t : State) (len : Nat), exec (.apply len) s = .next t →
    (∀ i : Fin 16, i ≠ 12 → i ≠ 13 → t.eng.s[i] = s.eng.s[i]) ∧
    t.eng.ready = s.eng.ready ∧ t.ports.cmd = s.ports.cmd ∧ t.draws = s.draws ∧
    (∃ outs, t.ports.out = s.ports.out ++ outs) ∧
    (s.eng.cur.toNat + len < 64 →
      t.eng.s = s.eng.s ∧ ∀ a, Memory.readByte t.eng.buf a = Memory.readByte s.eng.buf a)

/-- The corner cases the spec derives for APPLY (R127 (a), (b), (c)) and the position of R14: LEN = 0 changes no
state; the counter advances by (cur + LEN) div 64 modulo 2^64, the cursor becomes (cur + LEN) mod 64, so the position
advances by LEN modulo 2^70; after a regeneration the buffer is the block of the new state. -/
def Obligations.ApplyAdvancesThePosition : Prop :=
  ∀ (s t : State) (len : Nat), s.eng.CanApply → exec (.apply len) s = .next t →
    (len = 0 → t.eng = s.eng) ∧
    t.eng.counter = (s.eng.counter + (s.eng.cur.toNat + len) / 64) % 2 ^ 64 ∧
    t.eng.cur.toNat = (s.eng.cur.toNat + len) % 64 ∧
    t.eng.position = (s.eng.position + len) % 2 ^ 70 ∧
    (64 ≤ s.eng.cur.toNat + len →
      ∀ a : Fin 64, Memory.readByte t.eng.buf a.val = some (blockGenBytes t.eng.s)[a])

/-- The spec's derivation R127 (e): the source bytes never influence the state; two machines with equal engines and any
two source strings have equal engines after APPLY of the same length. -/
def Obligations.SourceBytesDoNotInfluenceTheEngine : Prop :=
  ∀ (s₁ s₂ t₁ t₂ : State) (len : Nat), s₁.eng = s₂.eng →
    exec (.apply len) s₁ = .next t₁ → exec (.apply len) s₂ = .next t₂ → t₁.eng = t₂.eng

/-- R111: at counter 2^64 - 1 the next block boundary makes the counter 0 with no error; `ready` stays 1 and the block
goes on with keystream block 0. -/
def Obligations.CounterOverflowIsSilent : Prop :=
  ∀ (s : State) (key : Key) (nonce : Nonce),
    s.eng.s = layout key nonce 0xFFFFFFFF#32 0xFFFFFFFF#32 → s.eng.ready = true → s.eng.cur = 63#7 →
    1 ≤ s.ports.din.length →
    ∃ t d, exec (.apply 1) s = .next t ∧
      t.eng.s = loadState key nonce ∧ t.eng.counter = 0 ∧ t.eng.ready = true ∧ t.eng.cur = 0#7 ∧
      (∀ a : Fin 64, Memory.readByte t.eng.buf a.val = some (keystreamBlock key nonce 0)[a]) ∧
      t.ports.out = s.ports.out ++ [.dout d, .rsp 0x00000100#32]

/-- Chunk invariance (the spec's derivation R128): any partition of a byte string into APPLY commands, empty ones among
them, gives the same engine, the same `dout` bytes and the same rest of `din` as one APPLY, from every ready state. -/
def Obligations.ChunkInvariance : Prop :=
  ∀ (s : State) (lens : List Nat), s.eng.CanApply → lens.sum ≤ s.ports.din.length →
    ∃ t u, applyRun lens s = .next t ∧ exec (.apply lens.sum) s = .next u ∧
      t.eng = u.eng ∧ doutOf t.ports.out = doutOf u.ports.out ∧ t.ports.din = u.ports.din ∧
      (rspOf t.ports.out).length = (rspOf s.ports.out).length + lens.length

/-- The keystream law (the spec's derivation R129): after a successful INIT and any APPLY commands of total length T,
the counter is T div 64 modulo 2^64, the cursor T mod 64, the buffer the block of the counter, and result byte `i` is
source byte `i` XOR keystream byte `i`. -/
def Obligations.KeystreamLaw : Prop :=
  ∀ (s : State) (key : Key) (nonce : Nonce) (src : List Byte) (lens : List Nat),
    s.ports.din = key.toList ++ nonce.toList ++ src → lens.sum = src.length →
    ∃ t u, exec (.init 32 8) s = .next t ∧ applyRun lens t = .next u ∧
      u.eng.counter = (src.length / 64) % 2 ^ 64 ∧ u.eng.cur.toNat = src.length % 64 ∧
      (∀ a : Fin 64, Memory.readByte u.eng.buf a.val = some (keystreamBlock key nonce u.eng.counter)[a]) ∧
      doutOf u.ports.out = doutOf s.ports.out ++
        (List.range src.length).map fun i => src.getD i 0#8 ^^^ keystreamByte key nonce i

/-- Involution (the spec's derivation R129): what one engine encrypts, an engine keyed with the same key and nonce
decrypts: APPLY of the result bytes after a new INIT gives the source bytes back. -/
def Obligations.ApplyTwiceRestoresTheData : Prop :=
  ∀ (s₁ s₂ : State) (key : Key) (nonce : Nonce) (x y : List Byte) (t₁ u₁ t₂ u₂ : State),
    s₁.ports.din = key.toList ++ nonce.toList ++ x → s₂.ports.din = key.toList ++ nonce.toList ++ y →
    exec (.init 32 8) s₁ = .next t₁ → exec (.apply x.length) t₁ = .next u₁ →
    doutOf u₁.ports.out = doutOf s₁.ports.out ++ y →
    exec (.init 32 8) s₂ = .next t₂ → exec (.apply x.length) t₂ = .next u₂ →
    doutOf u₂.ports.out = doutOf s₂.ports.out ++ x

/-- APPLY where `cur` is above 63, which the spec gives no meaning (R30: no such address; R126: precondition; log entry
6): with a byte to process it stops, by name. No legal state is such (R14, R18, R19). -/
def Obligations.ApplyBeyondTheBufferStops : Prop :=
  (∀ (s : State) (len : Nat), s.eng.ready = true → 64 ≤ s.eng.cur.toNat → 1 ≤ len → len ≤ s.ports.din.length →
    exec (.apply len) s = .fault .noSuchBufferByte) ∧
  ∀ e : Engine, e.Legal → e.cur.toNat < 64

/-! ## ERASE and illegal headers -/

/-- R130 and R131: from every state ERASE answers a next state with all 1032 state bits zero and the response
0x00000000; it takes no payload, and the state it leaves is the one hardware reset leaves. -/
def Obligations.EraseZeroesEverything : Prop :=
  ∀ s : State,
    ∃ t, exec .erase s = .next t ∧
      (∀ i : Fin 16, t.eng.s[i] = 0#32) ∧ (∀ a : Fin 64, Memory.readByte t.eng.buf a.val = some 0#8) ∧
      t.eng.cur = 0#7 ∧ t.eng.ready = false ∧ t.eng = State.reset.eng ∧
      t.ports = { cmd := s.ports.cmd, din := s.ports.din, out := s.ports.out ++ [.rsp 0x00000000#32] } ∧
      t.draws = s.draws

/-- R57 and R132: a header is illegal exactly when OPC is unknown or a reserved field is not zero; a step on it, its
payload supplied, leaves the block as it was, discards the payload and answers ERR_ILLEGAL with the unchanged READY
and CUR. -/
def Obligations.IllegalHeaderOnlyAnswers : Prop :=
  ∀ h : Word,
    ((∃ why, decode h = .illegal why) ↔
      (h.toNat % 256 ≠ 1 ∧ h.toNat % 256 ≠ 2 ∧ h.toNat % 256 ≠ 3) ∨ (h.toNat % 256 = 1 ∧ h.toNat / 2 ^ 24 ≠ 0) ∨
        (h.toNat % 256 = 3 ∧ h.toNat / 2 ^ 8 ≠ 0)) ∧
    ∀ (s : State) (acts : List HostAct), (∃ why, decode h = .illegal why) →
      s.ports.cmd = .command h :: acts → payloadLen h ≤ s.ports.din.length →
      step s = .next
        { eng := s.eng
          ports := { cmd := acts, din := s.ports.din.drop (payloadLen h)
                     out := s.ports.out ++ [.rsp (responseWord .errIllegal s.eng)] }
          draws := s.draws }

/-! ## Response and errors -/

/-- R60: the fields of the response word, for every code and every engine: CODE 7:0, READY 8, zero 15:9, CUR 22:16,
zero 31:23; the numeric values of the codes of R150, never above 0x04. -/
def Obligations.ResponseWordFields : Prop :=
  ∀ (c : StatusCode) (e : Engine),
    (responseWord c e).toNat = c.value.toNat + (if e.ready then 1 else 0) * 2 ^ 8 + e.cur.toNat * 2 ^ 16 ∧
    (responseWord c e).extractLsb' 0 8 = c.value ∧
    (responseWord c e).extractLsb' 8 1 = BitVec.ofBool e.ready ∧
    (responseWord c e).extractLsb' 9 7 = 0#7 ∧
    (responseWord c e).extractLsb' 16 7 = e.cur ∧
    (responseWord c e).extractLsb' 23 9 = 0#9 ∧
    c.value.toNat ≤ 4 ∧
    StatusCode.ok.value = 0x00#8 ∧ StatusCode.errKeyLen.value = 0x01#8 ∧ StatusCode.errNonceLen.value = 0x02#8 ∧
    StatusCode.errNotReady.value = 0x03#8 ∧ StatusCode.errIllegal.value = 0x04#8

/-- R155 with R150 and R44: every command, legal or not, that ends adds its `dout` bytes and then exactly one response
word, built from the state after it, whose code is the first that applies: ERR_ILLEGAL, ERR_KEY_LEN, ERR_NONCE_LEN,
ERR_NOT_READY, OK. -/
def Obligations.OneResponseWithTheFirstCode : Prop :=
  ∀ (s t : State) (h : Word) (acts : List HostAct),
    s.ports.cmd = .command h :: acts → payloadLen h ≤ s.ports.din.length → step s = .next t →
    ∃ dst : List Byte, t.ports.out = s.ports.out ++ dst.map .dout ++
      [.rsp (responseWord
        (if (h.toNat % 256 ≠ 1 ∧ h.toNat % 256 ≠ 2 ∧ h.toNat % 256 ≠ 3) ∨
            (h.toNat % 256 = 1 ∧ h.toNat / 2 ^ 24 ≠ 0) ∨ (h.toNat % 256 = 3 ∧ h.toNat / 2 ^ 8 ≠ 0) then .errIllegal
         else if h.toNat % 256 = 1 ∧ h.toNat / 2 ^ 8 % 256 ≠ 32 then .errKeyLen
         else if h.toNat % 256 = 1 ∧ h.toNat / 2 ^ 16 % 256 ≠ 8 then .errNonceLen
         else if h.toNat % 256 = 2 ∧ s.eng.ready = false then .errNotReady
         else .ok) t.eng)]

/-- R156: a command that reports an error has changed nothing in the block and emitted nothing: the next state is the
old one but for the payload taken and the one response word sent. The code depends on the header and the `ready` flag
alone. -/
def Obligations.ErrorsHaveNoEffect : Prop :=
  (∀ (s t : State) (h : Word) (acts : List HostAct) (r : Reply),
    s.ports.cmd = .command h :: acts → payloadLen h ≤ s.ports.din.length →
    commandReply h (s.ports.din.take (payloadLen h)) s.eng = some r → r.code ≠ .ok → step s = .next t →
    t.eng = s.eng ∧ t.ports.out = s.ports.out ++ [.rsp (responseWord r.code s.eng)] ∧
    t.ports.din = s.ports.din.drop (payloadLen h) ∧ t.ports.cmd = acts ∧ t.draws = s.draws) ∧
  ∀ (h : Word) (p p' : List Byte) (e e' : Engine) (r r' : Reply), e.ready = e'.ready →
    commandReply h p e = some r → commandReply h p' e' = some r' → r.code = r'.code

/-- The lifecycle the spec derives (R135), for every state with the cursor in range and every supplied command: the
header decides whether the engine is ready after it. -/
def Obligations.LifecycleIsTwoStates : Prop :=
  ∀ (s : State) (h : Word) (acts : List HostAct), s.ports.cmd = .command h :: acts →
    payloadLen h ≤ s.ports.din.length → s.eng.cur.toNat ≤ 63 →
    ∃ t, step s = .next t ∧
      t.eng.ready = (if h = 0x00082001#32 then true else if h = 0x00000003#32 then false else s.eng.ready)

/-- R15, whole machine: in one step `ready` becomes 1 only by the INIT header with lengths 32 and 8, and becomes 0 only
by the ERASE header or a reset: a reset cycle, a command cut by one, or a command that waits for its payload when the
reset cycle comes. -/
def Obligations.OnlyInitSetsAndEraseOrResetClearsReady : Prop :=
  ∀ s t : State, step s = .next t →
    (s.eng.ready = false → t.eng.ready = true → ∃ acts, s.ports.cmd = .command 0x00082001#32 :: acts) ∧
    (s.eng.ready = true → t.eng.ready = false →
      ∃ acts, s.ports.cmd = .command 0x00000003#32 :: acts ∨ s.ports.cmd = .resetCycle :: acts ∨
        ∃ h, s.ports.cmd = .commandThenReset h :: acts ∨
          (s.ports.cmd = .command h :: .resetCycle :: acts ∧ s.ports.din.length < payloadLen h))

/-- R11, whole machine: from a ready state to a ready state, unless the step is the INIT header with lengths 32 and 8,
words 0 to 11, 14 and 15 stay as they are. An APPLY header runs CTRINC once for each block boundary it crosses (from a
cursor STEP allows); every other action leaves all sixteen words, the counter among them. -/
def Obligations.KeyAndNonceWordsAreImmutable : Prop :=
  ∀ s t : State, step s = .next t → s.eng.ready = true → t.eng.ready = true →
    (¬∃ acts, s.ports.cmd = .command 0x00082001#32 :: acts) →
    (∀ i : Fin 16, i ≠ 12 → i ≠ 13 → t.eng.s[i] = s.eng.s[i]) ∧
    (∀ h acts, s.ports.cmd = .command h :: acts → h.toNat % 256 = 2 → s.eng.cur.toNat ≤ 63 →
      t.eng.s = (ctrInc^[(s.eng.cur.toNat + payloadLen h) / 64] s.eng).s) ∧
    ((∀ h acts, s.ports.cmd = .command h :: acts → h.toNat % 256 ≠ 2) → t.eng.s = s.eng.s)

/-! ## Reset -/

/-- R20: right after reset every element of the block's state is zero. -/
def Obligations.ResetStateIsAllZero : Prop :=
  (∀ i : Fin 16, State.reset.eng.s[i] = 0#32) ∧
  (∀ a : Fin 64, Memory.readByte State.reset.eng.buf a.val = some 0#8) ∧
  State.reset.eng.cur = 0#7 ∧ State.reset.eng.ready = false ∧ Memory.wf State.reset.eng.buf = true

/-- R171: a reset cycle answers a next state with every element of the block's state at its reset value, no response
and no other output. -/
def Obligations.ResetCycleZeroesTheBlock : Prop :=
  ∀ (s : State) (acts : List HostAct), s.ports.cmd = .resetCycle :: acts →
    ∃ t, step s = .next t ∧
      (∀ i : Fin 16, t.eng.s[i] = 0#32) ∧ (∀ a : Fin 64, Memory.readByte t.eng.buf a.val = some 0#8) ∧
      t.eng.cur = 0#7 ∧ t.eng.ready = false ∧
      t.ports = { s.ports with cmd := acts } ∧ t.draws = s.draws

/-- R172: a command cut short by reset leaves the reset state and no response; of the result bytes that its payload
would have given, a prefix has been delivered, of a length the statement does not fix; some payload bytes, no more than
announced, are gone. The lengths are the free values of log entry 5. That the payload bytes not taken stay in front of
`din` for the next command is the model's choice, log entry 7. -/
def Obligations.CutCommandDeliversAPrefix : Prop :=
  ∀ (s : State) (h : Word) (acts : List HostAct), s.eng.Legal → s.ports.cmd = .commandThenReset h :: acts →
    ∃ t gone all ds, step s = .next t ∧
      t.eng = State.reset.eng ∧ t.ports.cmd = acts ∧
      gone ≤ payloadLen h ∧ t.ports.din = s.ports.din.drop gone ∧
      producedBytes h (s.ports.din.take (payloadLen h)) s.eng = some all ∧
      ds <+: all ∧ ds.length ≤ gone ∧ t.ports.out = s.ports.out ++ ds.map .dout

/-- R179: a command whose payload the host does not supply stops the machine, by name (log entry 3), unless a reset
cycle comes next. Then R172 applies: the machine goes on from the reset state, the command gets no response, and the
host has got a prefix of the result bytes of the payload supplied, no longer than the payload bytes taken. The lengths
are the free values of log entry 5; that bytes not taken stay in front of `din` is log entry 7. -/
def Obligations.StarvedCommandWaitsForReset : Prop :=
  ∀ (s : State) (h : Word) (acts : List HostAct),
    s.ports.cmd = .command h :: acts → s.ports.din.length < payloadLen h →
    ((∀ rest, acts ≠ .resetCycle :: rest) → step s = .fault .waitingForPayload) ∧
    ∀ rest, acts = .resetCycle :: rest → s.eng.Legal →
      ∃ t gone all ds, step s = .next t ∧ t.eng = State.reset.eng ∧ t.ports.cmd = rest ∧
        gone ≤ s.ports.din.length ∧ t.ports.din = s.ports.din.drop gone ∧
        producedBytes h s.ports.din s.eng = some all ∧
        ds <+: all ∧ ds.length ≤ gone ∧ t.ports.out = s.ports.out ++ ds.map .dout

/-! ## The step, invariants, runs -/

/-- A step runs the decoded command (R134, R182): when the host's next action is a header that decodes to `i` and its
payload is supplied, the step is `exec` of `i` with that action taken off. -/
def Obligations.StepRunsTheDecodedCommand : Prop :=
  ∀ (s : State) (h : Word) (i : Instr) (acts : List HostAct),
    s.ports.cmd = .command h :: acts → decode h = .instr i → payloadLen h ≤ s.ports.din.length →
    payloadLen h = i.payload ∧
    step s = exec i { s with ports := { s.ports with cmd := acts } }

/-- R182: one step of a supplied command is the function State x Header x Payload to State x DoutBytes x Response, and
nothing of the machine outside the engine and the ports enters. -/
def Obligations.StepIsTheCommandFunction : Prop :=
  ∀ (s : State) (h : Word) (acts : List HostAct), s.ports.cmd = .command h :: acts →
    payloadLen h ≤ s.ports.din.length → s.eng.cur.toNat ≤ 63 →
    ∃ r, commandReply h (s.ports.din.take (payloadLen h)) s.eng = some r ∧
      step s = .next
        { eng := r.eng
          ports := { cmd := acts, din := s.ports.din.drop (payloadLen h)
                     out := s.ports.out ++ r.dout.map .dout ++ [.rsp (responseWord r.code r.eng)] }
          draws := s.draws }

/-- With no host action the step changes nothing (R182: "the block does nothing between commands"; that the step then
answers the same state is the model's choice, log entry 4). -/
def Obligations.IdleStepChangesNothing : Prop :=
  ∀ s : State, s.ports.cmd = [] → step s = .next s

/-- The invariants the spec derives (R18, R19): every step from a legal state that answers a next state leaves a legal
state. -/
def Obligations.StepKeepsLegal : Prop :=
  ∀ s t : State, s.eng.Legal → step s = .next t → t.eng.Legal

/-- The reset state is legal (R19, R20). -/
def Obligations.ResetStateIsLegal : Prop := State.reset.eng.Legal

/-- The canonical form of the keystream buffer: every step keeps it, from every state that has it. -/
def Obligations.StepKeepsBufferCanonical : Prop :=
  ∀ s t : State, Memory.wf s.eng.buf = true → step s = .next t → Memory.wf t.eng.buf = true

/-- Every run (R183): whatever the host does from a legal state, every state it reaches is legal; its buffer is in
canonical form, its cursor is at most 63, and outputs once sent stay sent. -/
def Obligations.EveryRunStaysLegal : Prop :=
  ∀ s t : State, s.eng.Legal → Reaches s t →
    t.eng.Legal ∧ Memory.wf t.eng.buf = true ∧ t.eng.cur.toNat ≤ 63 ∧ ∃ outs, t.ports.out = s.ports.out ++ outs

/-- R182 "It is total": from a legal state, with the payload of the next command supplied, the step answers a next
state; nothing the host may send stops the machine. -/
def Obligations.StepIsTotalOnLegalStates : Prop :=
  ∀ s : State, s.eng.Legal → s.PayloadSupplied → s.SafeStep

/-! ## The ports transfer by transfer -/

/-- R51: however the host delays and interleaves the transfers of one command, when the command is over the block and
the outputs are those of the atomic command, the payload taken is exactly `payload_len` bytes, and the response came
after the last payload byte and the last result byte. R41: taking a result byte or the response changes nothing in the
block. -/
def Obligations.TransfersAgreeWithTheAtomicCommand : Prop :=
  (∀ (p q : PortState) (h : Word) (ts : List Transfer),
    p.phase = .atRest → (∀ t ∈ ts, t.ofCommand = true) → transfers (.cmd h :: ts) p = some q → q.phase = .atRest →
    ∃ r, commandReply h (dinBytes ts) p.eng = some r ∧ (dinBytes ts).length = payloadLen h ∧
      q.eng = r.eng ∧ q.out = p.out ++ r.dout.map .dout ++ [.rsp (responseWord r.code r.eng)]) ∧
  ∀ p q : PortState, transfer .dout p = some q ∨ transfer .rsp p = some q → q.eng = p.eng

/-- R179: given a host that keeps its duties every command ends. From a legal state at rest, the transfers of a command
after its header are at most two for each payload byte and one response; as long as the command is not over, the block
presents a result byte, or takes whatever payload byte comes next, or presents the response; and any full payload has a
sequence of transfers, one for each payload byte, result byte and the response, that ends the command. -/
def Obligations.EveryCommandCanComplete : Prop :=
  ∀ (p : PortState) (h : Word), p.phase = .atRest → p.eng.Legal →
    (∀ (m : PortState) (ts : List Transfer), (∀ t ∈ ts, t.ofCommand = true) → transfers (.cmd h :: ts) p = some m →
      ts.length ≤ 2 * payloadLen h + 1 ∧
      (m.phase ≠ .atRest →
        (∃ q, transfer .dout m = some q) ∨ (∀ b, ∃ q, transfer (.din b) m = some q) ∨ ∃ q, transfer .rsp m = some q)) ∧
    ∀ payload : List Byte, payload.length = payloadLen h →
      ∃ ts q r, commandReply h payload p.eng = some r ∧ dinBytes ts = payload ∧
        (∀ t ∈ ts, t.ofCommand = true) ∧ ts.length = payload.length + r.dout.length + 1 ∧
        transfers (.cmd h :: ts) p = some q ∧ q.phase = .atRest

/-- R172 at the ports: a reset cycle during a command leaves the reset state at rest; the host has got a prefix of the
result bytes of the payload taken so far, and no response. -/
def Obligations.ResetAtThePortsDeliversAPrefix : Prop :=
  ∀ (p m q : PortState) (h : Word) (ts : List Transfer),
    p.phase = .atRest → (∀ t ∈ ts, t.ofCommand = true) →
    transfers (.cmd h :: ts) p = some m → m.phase ≠ .atRest → transfer .rst m = some q →
    q.eng = State.reset.eng ∧ q.phase = .atRest ∧
    ∃ all ds, producedBytes h (dinBytes ts) p.eng = some all ∧ ds <+: all ∧ q.out = p.out ++ ds.map .dout

/-! ## Command syntax -/

/-- R62 and R63: the pseudo-commands do what their expansions do, the header of an INIT, APPLY or ERASE line announces
the bytes the line gives (for lengths the fields can hold), a RAW line is its header and its payload as written, and
HWRESET is a reset cycle, not a command. -/
def Obligations.LinesSupplyWhatTheirHeadersAnnounce : Prop :=
  (∀ key nonce : List Byte, (SourceLine.construct key nonce).wire = (SourceLine.init key nonce).wire ∧
    (key.length < 256 → nonce.length < 256 →
      ∃ h, (SourceLine.init key nonce).wire = (.command h, key ++ nonce) ∧ payloadLen h = key.length + nonce.length ∧
        decode h = .instr (.init key.length nonce.length))) ∧
  (∀ src : List Byte, (SourceLine.encrypt src).wire = (SourceLine.apply src).wire ∧
    (SourceLine.decrypt src).wire = (SourceLine.apply src).wire ∧
    (src.length < 2 ^ 24 →
      ∃ h, (SourceLine.apply src).wire = (.command h, src) ∧ payloadLen h = src.length ∧
        decode h = .instr (.apply src.length))) ∧
  (∀ n, (SourceLine.keystream n).wire = (SourceLine.apply (List.replicate n 0#8)).wire) ∧
  (∀ (h : Word) (payload : List Byte), (SourceLine.raw h payload).wire = (.command h, payload)) ∧
  SourceLine.reset.wire = SourceLine.erase.wire ∧ payloadLen 0x00000003#32 = 0 ∧ SourceLine.erase.wire = (.command 0x00000003#32, []) ∧
  SourceLine.hwreset.wire = (.resetCycle, [])
end

