-- ==== Sys2Proof/Laws/Memory.lean ====
section
/-! SUPPORT. The keystream buffer: what a read gives after the one write there is, and that the write keeps the
canonical form. -/

namespace Sys2Proof.Machine

/-- The entries a list of addresses contributes to the buffer. -/
theorem lookup_filterMap (v : Block) (l : List (Fin 64)) (j : Fin 64) (hj : j ∈ l) (hl : l.Nodup) :
    Memory.lookup j.val (l.filterMap fun j => if v[j.val] = 0#8 then none else some (j.val, v[j.val])) = v[j.val] := by
  induction l with
  | nil => simp at hj
  | cons i l ih =>
    obtain ⟨hi, hl'⟩ := List.nodup_cons.mp hl
    have absent : ∀ (m : List (Fin 64)), i ∉ m →
        Memory.lookup i.val (m.filterMap fun j => if v[j.val] = 0#8 then none else some (j.val, v[j.val])) = 0#8 := by
      intro m hm
      induction m with
      | nil => rfl
      | cons k m ihm =>
        have hk : i ≠ k := fun h => hm (h ▸ List.mem_cons_self)
        have hm' := ihm fun h => hm (List.mem_cons_of_mem _ h)
        have hkv : i.val ≠ k.val := fun h => hk (Fin.ext h)
        by_cases hz : v[k.val] = 0#8
        · rw [List.filterMap_cons_none (by simp [hz])]; exact hm'
        · rw [List.filterMap_cons_some (b := (k.val, v[k.val])) (by simp [hz])]
          simp only [Memory.lookup, hkv, if_false]; exact hm'
    by_cases hz : v[i.val] = 0#8
    · rw [List.filterMap_cons_none (by simp [hz])]
      rcases List.mem_cons.mp hj with rfl | h
      · rw [absent l hi, hz]
      · exact ih h hl'
    · rw [List.filterMap_cons_some (b := (i.val, v[i.val])) (by simp [hz])]
      rcases List.mem_cons.mp hj with rfl | h
      · simp [Memory.lookup]
      · have hne : j.val ≠ i.val := fun hv => hi (Fin.ext hv ▸ h)
        simp only [Memory.lookup, hne, if_false]
        exact ih h hl'

/-- Read after write: every byte of the written block. -/
theorem lookup_ofBlock (v : Block) (j : Fin 64) : Memory.lookup j.val (Memory.ofBlock v) = v[j.val] :=
  lookup_filterMap v _ j (List.mem_finRange j) (List.nodup_finRange 64)

@[simp] theorem readByte_ofBlock (v : Block) (a : Nat) (h : a < 64) :
    Memory.readByte (Memory.ofBlock v) a = some v[a] := by
  have := lookup_ofBlock v ⟨a, h⟩
  simp [Memory.readByte, Config.blockBytes, h, this]

/-- An address reads exactly when it exists. -/
theorem readByte_isSome (m : Memory) (a : Nat) : (Memory.readByte m a).isSome = decide (a < 64) := by
  by_cases h : a < 64 <;> simp [Memory.readByte, Config.blockBytes, h]

/-- The canonical form, spelled out. -/
theorem wf_iff (m : Memory) : Memory.wf m = true ↔
    m.Pairwise (fun x y => x.1 < y.1) ∧ ∀ c ∈ m, c.1 < 64 ∧ c.2 ≠ 0#8 := by
  simp only [Memory.wf, Bool.and_eq_true, List.all_eq_true, decide_eq_true_eq]
  rfl

/-- The one memory operation that writes keeps the canonical form. -/
@[simp] theorem wf_ofBlock (v : Block) : Memory.wf (Memory.ofBlock v) = true := by
  rw [wf_iff]
  refine ⟨?_, ?_⟩
  · unfold Memory.ofBlock
    rw [List.pairwise_filterMap]
    refine List.Pairwise.imp ?_ (List.pairwise_lt_finRange 64)
    intro i j hij x hx y hy
    obtain ⟨-, rfl⟩ : ¬v[i.val] = 0#8 ∧ (i.val, v[i.val]) = x := by simpa using hx
    obtain ⟨-, rfl⟩ : ¬v[j.val] = 0#8 ∧ (j.val, v[j.val]) = y := by simpa using hy
    exact hij
  · intro c hc
    simp only [Memory.ofBlock, List.mem_filterMap] at hc
    obtain ⟨j, -, hj⟩ := hc
    by_cases hz : v[j.val] = 0#8
    · simp [hz] at hj
    · simp only [hz, if_false, Option.some.injEq] at hj
      subst hj
      exact ⟨j.isLt, hz⟩

/-- The buffer after 64 zero bytes have been written is the erased buffer. -/
@[simp] theorem ofBlock_zero : Memory.ofBlock (Vector.replicate 64 0#8) = [] := by decide +kernel

end Sys2Proof.Machine
end

