-- ==== Sys2Proof/Laws/State.lean ====
section
/-! SUPPORT. One lemma per field per update of the state, so that no later proof unfolds a record update. -/

namespace Sys2Proof.Machine

section
variable (s : State) (e : Engine) (acts : List HostAct) (bytes : List Byte) (outs : List PortOut)

@[simp] theorem setEng_eng : (s.setEng e).eng = e := rfl
@[simp] theorem setEng_ports : (s.setEng e).ports = s.ports := rfl
@[simp] theorem setEng_draws : (s.setEng e).draws = s.draws := rfl

@[simp] theorem setCmd_eng : (s.setCmd acts).eng = s.eng := rfl
@[simp] theorem setCmd_cmd : (s.setCmd acts).ports.cmd = acts := rfl
@[simp] theorem setCmd_din : (s.setCmd acts).ports.din = s.ports.din := rfl
@[simp] theorem setCmd_out : (s.setCmd acts).ports.out = s.ports.out := rfl
@[simp] theorem setCmd_draws : (s.setCmd acts).draws = s.draws := rfl

@[simp] theorem setDin_eng : (s.setDin bytes).eng = s.eng := rfl
@[simp] theorem setDin_cmd : (s.setDin bytes).ports.cmd = s.ports.cmd := rfl
@[simp] theorem setDin_din : (s.setDin bytes).ports.din = bytes := rfl
@[simp] theorem setDin_out : (s.setDin bytes).ports.out = s.ports.out := rfl
@[simp] theorem setDin_draws : (s.setDin bytes).draws = s.draws := rfl

@[simp] theorem send_eng : (s.send outs).eng = s.eng := rfl
@[simp] theorem send_cmd : (s.send outs).ports.cmd = s.ports.cmd := rfl
@[simp] theorem send_din : (s.send outs).ports.din = s.ports.din := rfl
@[simp] theorem send_out : (s.send outs).ports.out = s.ports.out ++ outs := rfl
@[simp] theorem send_draws : (s.send outs).draws = s.draws := rfl

@[simp] theorem countDraw_eng : s.countDraw.eng = s.eng := rfl
@[simp] theorem countDraw_ports : s.countDraw.ports = s.ports := rfl
@[simp] theorem countDraw_draws : s.countDraw.draws = s.draws + 1 := rfl

@[simp] theorem offer_eng (h : Word) : (s.offer h bytes).eng = s.eng := rfl
@[simp] theorem offer_cmd (h : Word) : (s.offer h bytes).ports.cmd = .command h :: s.ports.cmd := rfl
@[simp] theorem offer_din (h : Word) : (s.offer h bytes).ports.din = bytes ++ s.ports.din := rfl
@[simp] theorem offer_out (h : Word) : (s.offer h bytes).ports.out = s.ports.out := rfl
@[simp] theorem offer_draws (h : Word) : (s.offer h bytes).draws = s.draws := rfl

end

@[simp] theorem raiseError_eng (c : StatusCode) (e : Engine) : (raiseError c e).eng = e := rfl
@[simp] theorem raiseError_dout (c : StatusCode) (e : Engine) : (raiseError c e).dout = [] := rfl
@[simp] theorem raiseError_code (c : StatusCode) (e : Engine) : (raiseError c e).code = c := rfl

end Sys2Proof.Machine
end

