-- ==== Sys2Proof/Laws/Transform.lean ====
section
/-! SUPPORT. The quarter-round in place, and the counter: what each writes and what it leaves. -/

namespace Sys2Proof.Machine

/-- A replaced group: the word at each position. -/
theorem putGroup_getElem (y : Words) (g : WordGroup) (q : Word × Word × Word × Word) (m : Fin 16) :
    (putGroup y g q)[m.val] =
      if g.d = m then q.2.2.2 else if g.c = m then q.2.2.1 else if g.b = m then q.2.1
        else if g.a = m then q.1 else y[m.val] := by
  simp only [putGroup, Vector.getElem_set, Fin.ext_iff]

/-- QRAT leaves every word outside its group (R84). -/
theorem qrAt_other (x : Words) (g : WordGroup) (m : Fin 16)
    (ha : g.a ≠ m) (hb : g.b ≠ m) (hc : g.c ≠ m) (hd : g.d ≠ m) : (qrAt x g)[m.val] = x[m.val] := by
  simp [qrAt, putGroup_getElem, ha, hb, hc, hd]

/-- ADD32 and XOR32 of the feed-forward, word by word (R90). -/
@[simp] theorem core_getElem (x : Words) (i : Nat) (h : i < 16) :
    (core x)[i] = add32 (mix20 x)[i] x[i] := by
  simp [core]

/-- Byte `j` of a serialised block (R103). -/
@[simp] theorem serialize_getElem (x : Words) (j : Nat) (h : j < 64) :
    (serialize x)[j] = serByte (x[j / 4]'(by omega)) (j % 4) := by
  simp [serialize]

@[simp] theorem blockGen_s (e : Engine) : (blockGen e).s = e.s := by simp only [blockGen]
@[simp] theorem blockGen_buf (e : Engine) : (blockGen e).buf = Memory.ofBlock (blockGenBytes e.s) := by simp only [blockGen]
@[simp] theorem blockGen_cur (e : Engine) : (blockGen e).cur = e.cur := by simp only [blockGen]
@[simp] theorem blockGen_ready (e : Engine) : (blockGen e).ready = e.ready := by simp only [blockGen]

@[simp] theorem ctrInc_buf (e : Engine) : (ctrInc e).buf = e.buf := rfl
@[simp] theorem ctrInc_cur (e : Engine) : (ctrInc e).cur = e.cur := rfl
@[simp] theorem ctrInc_ready (e : Engine) : (ctrInc e).ready = e.ready := rfl

@[simp] theorem regen_s (e : Engine) : (regen e).s = (ctrInc e).s := by
  simp only [regen, blockGen_s]
@[simp] theorem regen_buf (e : Engine) : (regen e).buf = Memory.ofBlock (blockGenBytes (ctrInc e).s) := by
  simp only [regen, blockGen_buf]
@[simp] theorem regen_cur (e : Engine) : (regen e).cur = 0#7 := rfl
@[simp] theorem regen_ready (e : Engine) : (regen e).ready = e.ready := by
  simp only [regen, blockGen_ready, ctrInc_ready]

/-- CTRINC leaves every word but 12 and 13 (R110). -/
theorem ctrInc_other (e : Engine) (i : Nat) (h : i < 16) (h12 : i ≠ 12) (h13 : i ≠ 13) :
    (ctrInc e).s[i] = e.s[i] := by
  simp [ctrInc, Ne.symm h12, Ne.symm h13]

/-- The low counter word after CTRINC (R110). -/
theorem ctrInc_low (e : Engine) : (ctrInc e).s[12] = add32 e.s[12] 1#32 := by
  simp [ctrInc]

/-- The high counter word after CTRINC (R110). -/
theorem ctrInc_high (e : Engine) :
    (ctrInc e).s[13] = if add32 e.s[12] 1#32 = 0#32 then add32 e.s[13] 1#32 else e.s[13] := by
  simp [ctrInc]

end Sys2Proof.Machine
end

