-- ==== Sys2Proof/Laws/Commands.lean ====
section
/-! SUPPORT. What the shared operations of the commands can do: taking a payload, carrying a command from payload to
response, STEP and its fold. -/

namespace Sys2Proof.Machine

/-! ## Payload -/

theorem takeBytes_supplied {n : Nat} {din : List Byte} (h : n ≤ din.length) :
    takeBytes n din = some (din.take n, din.drop n) := by
  simp [takeBytes, h]

theorem takeBytes_starved {n : Nat} {din : List Byte} (h : din.length < n) : takeBytes n din = none := by
  simp [takeBytes, Nat.not_le.mpr h]

/-! ## From payload to response -/

/-- The state a command leaves: its engine, its payload gone from `din`, its outputs sent. -/
theorem conclude_supplied {n : Nat} {run : List Byte → Engine → Option Reply} {s : State} {r : Reply}
    (h : n ≤ s.ports.din.length) (hr : run (s.ports.din.take n) s.eng = some r) :
    conclude n run s = .next (((s.setDin (s.ports.din.drop n)).setEng r.eng).send r.outputs) := by
  simp [conclude, takeBytes_supplied h, hr]

theorem conclude_starved {n : Nat} {run : List Byte → Engine → Option Reply} {s : State}
    (h : s.ports.din.length < n) : conclude n run s = .fault .waitingForPayload := by
  simp [conclude, takeBytes_starved h]

/-- Everything carrying a command to its response can do. -/
theorem conclude_cases (n : Nat) (run : List Byte → Engine → Option Reply) (s : State) :
    (s.ports.din.length < n ∧ conclude n run s = .fault .waitingForPayload) ∨
    (n ≤ s.ports.din.length ∧ run (s.ports.din.take n) s.eng = none ∧
      conclude n run s = .fault .noSuchBufferByte) ∨
    (n ≤ s.ports.din.length ∧ ∃ r, run (s.ports.din.take n) s.eng = some r ∧
      conclude n run s = .next (((s.setDin (s.ports.din.drop n)).setEng r.eng).send r.outputs)) := by
  rcases Nat.lt_or_ge s.ports.din.length n with h | h
  · exact .inl ⟨h, conclude_starved h⟩
  · cases hr : run (s.ports.din.take n) s.eng with
    | none => exact .inr (.inl ⟨h, rfl, by simp [conclude, takeBytes_supplied h, hr]⟩)
    | some r => exact .inr (.inr ⟨h, r, rfl, conclude_supplied h hr⟩)

/-- If a command ends with a response, this is what it left. -/
theorem conclude_next {n : Nat} {run : List Byte → Engine → Option Reply} {s t : State}
    (h : conclude n run s = .next t) :
    n ≤ s.ports.din.length ∧ ∃ r, run (s.ports.din.take n) s.eng = some r ∧
      t = ((s.setDin (s.ports.din.drop n)).setEng r.eng).send r.outputs := by
  rcases conclude_cases n run s with ⟨_, e⟩ | ⟨_, _, e⟩ | ⟨hn, r, hr, e⟩
  · simp [e] at h
  · simp [e] at h
  · rw [e] at h
    exact ⟨hn, r, hr, (Host.Outcome.next.inj h).symm⟩

/-! ## STEP -/

/-- STEP where its precondition on the cursor holds (R126). -/
theorem stepByte_inRange {b : Byte} {e : Engine} (h : e.cur.toNat ≤ 63) :
    stepByte b e = some
      (if e.cur + 1#7 = 64#7 then regen { e with cur := e.cur + 1#7 } else { e with cur := e.cur + 1#7 },
        b ^^^ Memory.lookup e.cur.toNat e.buf) := by
  have hr : Memory.readByte e.buf e.cur.toNat = some (Memory.lookup e.cur.toNat e.buf) :=
    if_pos (show e.cur.toNat < 64 by omega)
  simp [stepByte, hr]

/-- STEP where it does not. -/
theorem stepByte_outOfRange {b : Byte} {e : Engine} (h : 64 ≤ e.cur.toNat) : stepByte b e = none := by
  have hr : Memory.readByte e.buf e.cur.toNat = none := if_neg (show ¬e.cur.toNat < 64 by omega)
  simp [stepByte, hr]

/-- Everything STEP can do: at `cur < 63` only the cursor changes, at `cur = 63` the block is regenerated. -/
theorem stepByte_cases {b d : Byte} {e e' : Engine} (h : stepByte b e = some (e', d)) :
    d = b ^^^ Memory.lookup e.cur.toNat e.buf ∧
    ((e.cur.toNat < 63 ∧ e' = { e with cur := e.cur + 1#7 } ∧ e'.cur.toNat = e.cur.toNat + 1) ∨
      (e.cur.toNat = 63 ∧ e' = regen e)) := by
  have hc : e.cur.toNat ≤ 63 := by
    by_contra hn
    rw [stepByte_outOfRange (by omega)] at h
    cases h
  rw [stepByte_inRange hc] at h
  obtain ⟨rfl, rfl⟩ : _ = e' ∧ _ = d := by simpa using h
  refine ⟨rfl, ?_⟩
  rcases Nat.lt_or_ge e.cur.toNat 63 with hlt | hge
  · have hne : ¬e.cur + 1#7 = 64#7 := by bv_omega
    refine .inl ⟨hlt, by simp [hne], ?_⟩
    simp only [hne, if_false]
    bv_omega
  · have he : e.cur + 1#7 = 64#7 := by bv_omega
    exact .inr ⟨by omega, by simp only [he, if_true]; rfl⟩

/-- STEP keeps `ready` and its own precondition (R126). -/
theorem stepByte_keeps {b d : Byte} {e e' : Engine} (h : stepByte b e = some (e', d)) :
    e'.ready = e.ready ∧ e'.cur.toNat ≤ 63 := by
  rcases (stepByte_cases h).2 with ⟨_, rfl, hc⟩ | ⟨_, rfl⟩
  · exact ⟨rfl, by omega⟩
  · exact ⟨rfl, by simp⟩

/-! ## APPLY's fold of STEP -/

/-- A fold over a longer byte string is a fold over its front, then over the rest. -/
theorem applyBytes_append (x y : List Byte) (e : Engine) :
    applyBytes (x ++ y) e =
      match applyBytes x e with
      | none => none
      | some (e', dx) =>
        match applyBytes y e' with
        | none => none
        | some (e'', dy) => some (e'', dx ++ dy) := by
  induction x generalizing e with
  | nil => cases h : applyBytes y e <;> simp [applyBytes, h]
  | cons b x ih =>
    simp only [List.cons_append, applyBytes]
    cases hs : stepByte b e with
    | none => rfl
    | some p =>
      simp only [ih]
      cases hx : applyBytes x p.1 with
      | none => rfl
      | some q => cases hy : applyBytes y q.1 <;> simp [hy]

/-- One byte then the rest. -/
theorem applyBytes_cons_some {b : Byte} {src dst : List Byte} {e e'' : Engine}
    (h : applyBytes (b :: src) e = some (e'', dst)) :
    ∃ e' d ds, stepByte b e = some (e', d) ∧ applyBytes src e' = some (e'', ds) ∧ dst = d :: ds := by
  simp only [applyBytes] at h
  cases hs : stepByte b e with
  | none => simp [hs] at h
  | some p =>
    simp only [hs] at h
    cases hx : applyBytes src p.1 with
    | none => simp [hx] at h
    | some q =>
      obtain ⟨rfl, rfl⟩ : q.1 = e'' ∧ p.2 :: q.2 = dst := by simpa [hx] using h
      exact ⟨p.1, p.2, q.2, rfl, hx, rfl⟩

/-- From a cursor in range the fold never stops (R127). -/
theorem applyBytes_total (src : List Byte) {e : Engine} (h : e.cur.toNat ≤ 63) :
    ∃ e' dst, applyBytes src e = some (e', dst) := by
  induction src generalizing e with
  | nil => exact ⟨e, [], rfl⟩
  | cons b src ih =>
    obtain ⟨e1, d, hs⟩ : ∃ e1 d, stepByte b e = some (e1, d) := ⟨_, _, stepByte_inRange h⟩
    obtain ⟨e', dst, hx⟩ := ih (stepByte_keeps hs).2
    exact ⟨e', d :: dst, by simp [applyBytes, hs, hx]⟩

/-- One result byte per source byte; `ready` and the cursor's range are kept (R124, R126). -/
theorem applyBytes_keeps {src dst : List Byte} {e e' : Engine} (h : applyBytes src e = some (e', dst)) :
    dst.length = src.length ∧ e'.ready = e.ready ∧ (e.cur.toNat ≤ 63 → e'.cur.toNat ≤ 63) := by
  induction src generalizing e dst with
  | nil =>
    obtain ⟨rfl, rfl⟩ : e = e' ∧ [] = dst := by simpa [applyBytes] using h
    exact ⟨rfl, rfl, id⟩
  | cons b src ih =>
    obtain ⟨e1, d, ds, hs, hx, rfl⟩ := applyBytes_cons_some h
    obtain ⟨hl, hr, hc⟩ := ih hx
    obtain ⟨hr1, hc1⟩ := stepByte_keeps hs
    exact ⟨by simp [hl], hr.trans hr1, fun _ => hc hc1⟩

/-- What APPLY can reply (R124, R125). -/
theorem applyReply_cases {src : List Byte} {e : Engine} {r : Reply} (h : applyReply src e = some r) :
    (e.ready = false ∧ r = raiseError .errNotReady e) ∨
    (e.ready = true ∧ ∃ e' dst, applyBytes src e = some (e', dst) ∧ r = ⟨e', dst, .ok⟩) := by
  unfold applyReply at h
  cases hr : e.ready with
  | false =>
    simp only [hr, if_true, Option.some.injEq] at h
    exact .inl ⟨rfl, h.symm⟩
  | true =>
    cases ha : applyBytes src e with
    | none => simp [hr, ha] at h
    | some q =>
      simp only [hr, ha, Bool.true_eq_false, if_false, Option.some.injEq] at h
      exact .inr ⟨rfl, q.1, q.2, rfl, h.symm⟩

/-- What INIT can reply (R120 to R123). -/
theorem initReply_cases (klen nlen : Nat) (p : List Byte) (e : Engine) :
    (klen ≠ 32 ∧ initReply klen nlen p e = raiseError .errKeyLen e) ∨
    (klen = 32 ∧ nlen ≠ 8 ∧ initReply klen nlen p e = raiseError .errNonceLen e) ∨
    (klen = 32 ∧ nlen = 8 ∧ initReply klen nlen p e = ⟨construct (keyOf p) (nonceOf p) e, [], .ok⟩) := by
  by_cases hk : klen = 32 <;> by_cases hn : nlen = 8 <;>
    simp [initReply, Config.keyBytes, Config.nonceBytes, hk, hn]

/-- ERASE leaves the erased engine, whatever was there (R130, R131). -/
@[simp] theorem eraseEngine_eq (e : Engine) : eraseEngine e = Engine.erased := by
  simp [eraseEngine, Engine.erased]

end Sys2Proof.Machine
end

