-- ==== Sys2Proof/Laws/PerInstr.lean ====
section
/-! SUPPORT. Statements for all commands, one lemma per constructor. Family EncodedPayload: the header a well-formed
command is encoded in announces exactly the command's payload (spec/30_encoding.md R54). -/

namespace Sys2Proof.Laws.EncodedPayload

/-- The payload length read from the header is the one the operands give. -/
def Statement (i : Instr) : Prop := i.wellFormed = true → payloadLen (encode i) = i.payload

/-- OPC of INIT. -/
theorem opc_init (klen nlen : Nat) : headerOpc (encode (.init klen nlen)) = 0x01#8 := by
  simp only [headerOpc, encode, BitVec.extractLsb'_append_eq_right]

/-- KLEN of INIT. -/
theorem klen_init (klen nlen : Nat) : headerKlen (encode (.init klen nlen)) = BitVec.ofNat 8 klen := by
  ext k hk
  simp only [headerKlen, encode, BitVec.getElem_extractLsb']
  rw [BitVec.getLsbD_append, BitVec.getLsbD_append]
  simp [hk]

/-- NLEN of INIT. -/
theorem nlen_init (klen nlen : Nat) : headerNlen (encode (.init klen nlen)) = BitVec.ofNat 8 nlen := by
  ext k hk
  simp only [headerNlen, encode, BitVec.getElem_extractLsb']
  rw [BitVec.getLsbD_append, BitVec.getLsbD_append, BitVec.getLsbD_append]
  have h1 : 16 + k - 8 = 8 + k := by omega
  have h2 : 8 ≤ 16 + k := by omega
  simp [h1, h2, hk]

theorem init (klen nlen : Nat) : Statement (.init klen nlen) := by
  intro h
  simp only [Instr.wellFormed, Bool.and_eq_true, decide_eq_true_eq] at h
  simp [payloadLen, opc_init, klen_init, nlen_init, Instr.payload, Nat.mod_eq_of_lt h.1, Nat.mod_eq_of_lt h.2]

theorem apply (len : Nat) : Statement (.apply len) := by
  intro h
  simp only [Instr.wellFormed, decide_eq_true_eq] at h
  have ho : headerOpc (encode (.apply len)) = 0x02#8 := by
    simp only [headerOpc, encode, BitVec.extractLsb'_append_eq_right]
  have hh : headerHigh (encode (.apply len)) = BitVec.ofNat 24 len := by
    ext k hk
    simp only [headerHigh, encode, BitVec.getElem_extractLsb']
    rw [BitVec.getLsbD_append]
    simp [hk]
  simp [payloadLen, ho, hh, Instr.payload, Nat.mod_eq_of_lt h]

theorem erase : Statement .erase := by
  intro _
  decide

end Sys2Proof.Laws.EncodedPayload
end

