-- ==== Sys2Proof/Laws/Step.lean ====
section
/-! SUPPORT. Everything one step can do, said once. -/

namespace Sys2Proof.Machine

/-- A reset cycle leaves the erased engine (R171). -/
@[simp] theorem resetEngine_eq (e : Engine) : resetEngine e = Engine.erased := by
  simp [resetEngine, Engine.erased]

/-- A reset cycle touches nothing but the block's state (R171). -/
@[simp] theorem hwReset_eq (s : State) : hwReset s = s.setEng Engine.erased := by
  simp [hwReset]

/-- The payload a command takes is the one its header announces (R54). -/
theorem payloadLen_of_decode {h : Word} {i : Instr} (hd : decode h = .instr i) : payloadLen h = i.payload := by
  unfold decode at hd
  unfold payloadLen
  split at hd
  · rename_i h1
    split at hd
    · obtain rfl := Decoded.instr.inj hd; simp [h1, Instr.payload]
    · cases hd
  · rename_i h1
    split at hd
    · rename_i h2
      obtain rfl := Decoded.instr.inj hd; simp [h2, Instr.payload]
    · split at hd
      · rename_i h2 h3
        split at hd
        · obtain rfl := Decoded.instr.inj hd; simp [h3, Instr.payload]
        · cases hd
      · cases hd

/-- Executing a header, legal or not, is the command function of R182 between payload and response. -/
theorem runHeader_eq (h : Word) (s : State) :
    runHeader h s = conclude (payloadLen h) (commandReply h) s := by
  unfold runHeader
  cases hd : decode h with
  | illegal w => simp [execIllegal, conclude, commandReply, hd]
  | instr i =>
    simp only [payloadLen_of_decode hd]
    cases i <;> simp [exec, execInit, execApply, execErase, conclude, commandReply, Instr.payload, hd]

/-- A command whose payload is supplied runs, whatever the host does after it. -/
theorem takeTurn_supplied {s : State} {h : Word} {acts : List HostAct} (hc : s.ports.cmd = .command h :: acts)
    (hl : payloadLen h ≤ s.ports.din.length) : takeTurn s = .run h (s.setCmd acts) := by
  cases acts with
  | nil => simp [takeTurn, hc]
  | cons a acts => cases a <;> simp [takeTurn, hc, hl]

/-- The step of a supplied command. -/
theorem step_supplied {s : State} {h : Word} {acts : List HostAct} (hc : s.ports.cmd = .command h :: acts)
    (hl : payloadLen h ≤ s.ports.din.length) :
    step s = conclude (payloadLen h) (commandReply h) (s.setCmd acts) := by
  simp [step, takeTurn_supplied hc hl, runHeader_eq]

/-- Everything a step can do when it does not stop: nothing (no host action), a reset cycle, a command cut short by
reset, or a command carried to its response. -/
theorem step_next_cases {s t : State} (h : step s = .next t) :
    (s.ports.cmd = [] ∧ t = s) ∨
    (∃ acts, s.ports.cmd = .resetCycle :: acts ∧ t = (s.setCmd acts).setEng Engine.erased) ∨
    (∃ hd acts, (s.ports.cmd = .commandThenReset hd :: acts ∨
        (s.ports.cmd = .command hd :: .resetCycle :: acts ∧ s.ports.din.length < payloadLen hd)) ∧
      abandon hd (s.setCmd acts) = .next t) ∨
    (∃ hd acts r, s.ports.cmd = .command hd :: acts ∧ payloadLen hd ≤ s.ports.din.length ∧
      commandReply hd (s.ports.din.take (payloadLen hd)) s.eng = some r ∧
      t = (((s.setCmd acts).setDin (s.ports.din.drop (payloadLen hd))).setEng r.eng).send r.outputs) := by
  have ran : ∀ hd acts, s.ports.cmd = .command hd :: acts →
      conclude (payloadLen hd) (commandReply hd) (s.setCmd acts) = .next t →
      ∃ hd acts r, s.ports.cmd = .command hd :: acts ∧ payloadLen hd ≤ s.ports.din.length ∧
        commandReply hd (s.ports.din.take (payloadLen hd)) s.eng = some r ∧
        t = (((s.setCmd acts).setDin (s.ports.din.drop (payloadLen hd))).setEng r.eng).send r.outputs := by
    intro hd acts hc hn
    obtain ⟨hl, r, hr, ht⟩ := conclude_next hn
    exact ⟨hd, acts, r, hc, hl, hr, ht⟩
  unfold step takeTurn at h
  cases hc : s.ports.cmd with
  | nil => exact .inl ⟨rfl, by simpa [hc, eq_comm] using h⟩
  | cons a acts =>
    cases a with
    | resetCycle => exact .inr (.inl ⟨acts, rfl, by simpa [hc, eq_comm] using h⟩)
    | commandThenReset hd => exact .inr (.inr (.inl ⟨hd, acts, .inl rfl, by simpa [hc] using h⟩))
    | command hd =>
      match acts, hc with
      | [], hc => exact .inr (.inr (.inr (hc ▸ ran hd [] hc (by rw [← runHeader_eq]; simpa [hc] using h))))
      | .command h2 :: rest, hc =>
        exact .inr (.inr (.inr (hc ▸ ran hd _ hc (by rw [← runHeader_eq]; simpa [hc] using h))))
      | .commandThenReset h2 :: rest, hc =>
        exact .inr (.inr (.inr (hc ▸ ran hd _ hc (by rw [← runHeader_eq]; simpa [hc] using h))))
      | .resetCycle :: rest, hc =>
        by_cases hl : payloadLen hd ≤ s.ports.din.length
        · exact .inr (.inr (.inr (hc ▸ ran hd _ hc (by rw [← runHeader_eq]; simpa [hc, hl] using h))))
        · exact .inr (.inr (.inl ⟨hd, rest, .inr ⟨rfl, by omega⟩, by simpa [hc, hl] using h⟩))

/-- Everything a cut command can leave (R172): the engine reset, a prefix of the produced bytes sent, no response. -/
theorem abandon_next {hd : Word} {s t : State} (h : abandon hd s = .next t) :
    ∃ gone dst m, gone ≤ payloadLen hd ∧ gone ≤ s.ports.din.length ∧
      producedBytes hd (s.ports.din.take gone) s.eng = some dst ∧
      t = (((s.setDin (s.ports.din.drop gone)).send ((dst.take m).map .dout)).setEng Engine.erased).countDraw := by
  unfold abandon at h
  cases hp : producedBytes hd (s.ports.din.take (cutGoneBytes hd s)) s.eng with
  | none => simp [hp] at h
  | some dst =>
    refine ⟨cutGoneBytes hd s, dst, Config.cutDelivered s.draws, ?_, ?_, hp, ?_⟩
    · unfold cutGoneBytes; omega
    · unfold cutGoneBytes; omega
    · simpa [hp, eq_comm] using h

end Sys2Proof.Machine
end

