-- ==== Sys2Proof/Laws/Transfers.lean ====
section
/-! SUPPORT. Everything one transfer at the ports can do, said once for each kind of transfer. -/

namespace Sys2Proof.Machine

variable {p q : PortState} {h : Word} {b : Byte}

/-- With the payload complete the command has done its work and answers; otherwise it goes on taking payload. -/
theorem settle_cases (h : Word) (taken owed : List Byte) (p : PortState) :
    (taken.length = payloadLen h ∧ settle h taken owed p =
      ⟨(finish h taken p.eng).1, .answering (finish h taken p.eng).2 owed, p.out⟩) ∨
    (taken.length ≠ payloadLen h ∧ settle h taken owed p = ⟨p.eng, .busy h taken owed, p.out⟩) := by
  by_cases hl : taken.length = payloadLen h
  · exact .inl ⟨hl, if_pos hl⟩
  · exact .inr ⟨hl, if_neg hl⟩

/-- Settling sends nothing. -/
@[simp] theorem settle_out (h : Word) (taken owed : List Byte) (p : PortState) : (settle h taken owed p).out = p.out := by
  unfold settle; split <;> rfl

/-- A header is accepted only at rest. -/
theorem transfer_cmd (ht : transfer (.cmd h) p = some q) : p.phase = .atRest ∧ q = settle h [] [] p := by
  cases hp : p.phase <;> simp_all [transfer]

/-- A payload byte is taken only while the payload is not complete. -/
theorem transfer_din (ht : transfer (.din b) p = some q) :
    ∃ h taken owed e ds, p.phase = .busy h taken owed ∧ taken.length < payloadLen h ∧
      acceptByte h b p.eng = some (e, ds) ∧ q = settle h (taken ++ [b]) (owed ++ ds) { p with eng := e } := by
  cases hp : p.phase with
  | atRest => simp [transfer, hp] at ht
  | answering c owed => simp [transfer, hp] at ht
  | busy h taken owed =>
    simp only [transfer, hp] at ht
    split at ht
    · next hl =>
      cases ha : acceptByte h b p.eng with
      | none => simp [ha] at ht
      | some x => exact ⟨h, taken, owed, x.1, x.2, rfl, hl, ha, by simpa [ha, eq_comm] using ht⟩
    · cases ht

/-- The host takes the oldest result byte owed; nothing else changes (20_memory.md R41). -/
theorem transfer_dout (ht : transfer .dout p = some q) :
    ∃ d owed, q.eng = p.eng ∧ q.out = p.out ++ [.dout d] ∧
      ((∃ h taken, p.phase = .busy h taken (d :: owed) ∧ q.phase = .busy h taken owed) ∨
        ∃ c, p.phase = .answering c (d :: owed) ∧ q.phase = .answering c owed) := by
  cases hp : p.phase with
  | atRest => simp [transfer, hp] at ht
  | answering c owed =>
    cases owed with
    | nil => simp [transfer, hp] at ht
    | cons d owed =>
      obtain rfl : _ = q := by simpa [transfer, hp] using ht
      exact ⟨d, owed, rfl, rfl, .inr ⟨c, rfl, rfl⟩⟩
  | busy h taken owed =>
    cases owed with
    | nil => simp [transfer, hp] at ht
    | cons d owed =>
      obtain rfl : _ = q := by simpa [transfer, hp] using ht
      exact ⟨d, owed, rfl, rfl, .inl ⟨h, taken, rfl, rfl⟩⟩

/-- The response is taken last, built from the engine as it stands, and leaves it so (20_memory.md R41). -/
theorem transfer_rsp (ht : transfer .rsp p = some q) :
    ∃ c, p.phase = .answering c [] ∧ q = ⟨p.eng, .atRest, p.out ++ [.rsp (responseWord c p.eng)]⟩ := by
  cases hp : p.phase with
  | atRest => simp [transfer, hp] at ht
  | busy h taken owed => simp [transfer, hp] at ht
  | answering c owed =>
    cases owed with
    | cons d owed => simp [transfer, hp] at ht
    | nil => exact ⟨c, rfl, by simpa [transfer, hp, eq_comm] using ht⟩

/-- A reset cycle is possible at any moment. -/
@[simp] theorem transfer_rst (p : PortState) : transfer .rst p = some ⟨resetEngine p.eng, .atRest, p.out⟩ := by
  cases hp : p.phase <;> simp [transfer]

end Sys2Proof.Machine
end

