-- ==== Sys2Proof/Tests/Slice0.lean ====
section
/-! SUPPORT. Tests: the well-formedness checks, header words written out from the spec, values of spec/95_test_vectors.md,
and for every obligation with hypotheses a witness that meets them. Expected values are the spec's. -/

namespace Sys2Proof.Tests

open Sys2Proof Sys2Proof.Machine

/-! ## Helpers -/

/-- A machine with an engine, host actions and payload bytes. -/
def machine (e : Engine) (acts : List HostAct) (din : List Byte) : State :=
  { eng := e, ports := { cmd := acts, din := din, out := [] }, draws := 0 }

/-- `n` zero bytes. -/
def zeros (n : Nat) : List Byte := List.replicate n 0#8

/-- The key and the nonce of the spec's first vector. -/
def zeroKey : Key := Vector.replicate 32 0#8
def zeroNonce : Nonce := Vector.replicate 8 0#8

/-- The engine after `INIT key=00*32 nonce=00*8` (V8.1), with its cursor moved. -/
def keyed (cur : BitVec 7) : Engine := { construct zeroKey zeroNonce Engine.erased with cur := cur }

/-- A ready engine with an empty buffer: no legal state, for hypotheses that do not ask for one. -/
def bare (cur : BitVec 7) : Engine := { Engine.erased with cur := cur, ready := true }

/-- Whether an outcome is a next state. -/
def isNext : Host.Outcome State Fault Refusal → Bool
  | .next _ => true
  | .fault _ => false
  | .refused _ => false

/-- The next state, or the reset state where there is none. -/
def nextState : Host.Outcome State Fault Refusal → State
  | .next t => t
  | .fault _ => State.reset
  | .refused _ => State.reset

theorem next_of_isNext {o : Host.Outcome State Fault Refusal} (h : isNext o = true) : o = .next (nextState o) := by
  cases o <;> simp_all [isNext, nextState]

/-- The outputs of one step. -/
def outputs (s : State) : List PortOut := (nextState (step s)).ports.out

/-! ## Well-formedness: each check refuses an ill-formed term and accepts the largest legal one -/

theorem test_wellFormed_refuses_klen : (Instr.init 256 8).wellFormed = false := by decide
theorem test_wellFormed_refuses_nlen : (Instr.init 32 256).wellFormed = false := by decide
theorem test_wellFormed_refuses_len : (Instr.apply 16777216).wellFormed = false := by decide
theorem test_wellFormed_accepts :
    (Instr.init 255 255).wellFormed = true ∧ (Instr.apply 16777215).wellFormed = true ∧
      Instr.erase.wellFormed = true := by decide

/-! ## Decoding: headers written out bit by bit from the formats of R52 (fields RSVI NLEN KLEN OPC; LEN OPC; RSVZ OPC) -/

theorem test_decode_init : decode 0b00000000000010000010000000000001#32 = .instr (.init 32 8) := by decide
theorem test_decode_init_fields : decode 0b00000000000000110000010100000001#32 = .instr (.init 5 3) := by decide
theorem test_decode_apply : decode 0b00000000000000000100000000000010#32 = .instr (.apply 64) := by decide
theorem test_decode_apply_top : decode 0b10000000000000000000000100000010#32 = .instr (.apply 8388609) := by decide
theorem test_decode_erase : decode 0b00000000000000000000000000000011#32 = .instr .erase := by decide
theorem test_decode_reserved :
    decode 0b00000001000010000010000000000001#32 = .illegal .reservedInit ∧
      decode 0b00000000000000000000000100000011#32 = .illegal .reservedErase ∧
      decode 0b00000000000000000000000000000100#32 = .illegal .unknownOpcode := by decide
theorem test_decodeTableWord :
    decodeTableWord 32 0x00082001 = some (.init 32 8) ∧ decodeTableWord 32 0x00004002 = some (.apply 64) ∧
      decodeTableWord 32 0x00000003 = some .erase ∧ decodeTableWord 32 0x00000103 = none := by decide

/-! ## The Core Transform and the block generator (95_test_vectors.md sections 2 to 6) -/

/-- V2.9 to V2.12 -/
theorem test_rotl32 :
    rotl32 0x12345678#32 16 = 0x56781234#32 ∧ rotl32 0x12345678#32 12 = 0x45678123#32 ∧
      rotl32 0x12345678#32 8 = 0x34567812#32 ∧ rotl32 0x12345678#32 7 = 0x1A2B3C09#32 := by decide

/-- V3.1 -/
theorem test_qr : qr 0x11111111#32 0x01020304#32 0x9B8D6F43#32 0x01234567#32 =
    (0xEA2A92F4#32, 0xCB1CF8CE#32, 0x4581472E#32, 0x5881C4BB#32) := by decide

/-- V3.4 and V3.6: a single one bit in operand a, in operand c -/
theorem test_qr_positions :
    qr 1#32 0#32 0#32 0#32 = (0x10000001#32, 0x80808808#32, 0x01010110#32, 0x01000110#32) ∧
      qr 0#32 0#32 1#32 0#32 = (0x00001000#32, 0x08080080#32, 0x00100001#32, 0x00100000#32) := by decide

/-- V4.1 -/
theorem test_colRound : colRound (loadState zeroKey zeroNonce) =
    #v[0xB7877FEB#32, 0x16526AB4#32, 0xA0F85005#32, 0xB1D26BCB#32, 0x4A7D5C86#32, 0xFAE0EA21#32, 0x66E11E68#32,
      0xE3A851A6#32, 0x5A83FD3F#32, 0xA0C7C792#32, 0xF75BE0EF#32, 0x0B7556F4#32, 0xE21E9BCF#32, 0x3C599472#32,
      0xCA29678D#32, 0xA600EBD4#32] := by decide +kernel

/-- V4.2 -/
theorem test_doubleRound : doubleRound (loadState zeroKey zeroNonce) =
    #v[0xE45FD249#32, 0x1BB820A6#32, 0xE31A88EA#32, 0xE667A9FE#32, 0x2A3BF673#32, 0x86BF4098#32, 0x460B500A#32,
      0xFA169886#32, 0x538DCA0E#32, 0x0C439641#32, 0x00FA16BC#32, 0x8A08812A#32, 0x6BBF8B09#32, 0xC33013D6#32,
      0xBB9F9849#32, 0x87C62165#32] := by decide +kernel

/-- V4.4 -/
theorem test_core : Machine.core (loadState zeroKey zeroNonce) =
    #v[0xADE0B876#32, 0x903DF1A0#32, 0xE56A5D40#32, 0x28BD8653#32, 0xB819D2BD#32, 0x1AED8DA0#32, 0xCCEF36A8#32,
      0xC70D778B#32, 0x7C5941DA#32, 0x8D485751#32, 0x3FE02477#32, 0x374AD8B8#32, 0xF4B8436A#32, 0x1CA11815#32,
      0x69B687C3#32, 0x8665EEB2#32] := by decide +kernel

/-- V5.0 -/
theorem test_le32_ser32 :
    le32 0x00#8 0x01#8 0x02#8 0x03#8 = 0x03020100#32 ∧ ser32 0xADE0B876#32 = (0x76#8, 0xB8#8, 0xE0#8, 0xAD#8) := by
  decide

/-- V5.7: the state for key 000102...1f and nonce 0001020304050607 -/
theorem test_loadState :
    loadState (Vector.ofFn fun i => BitVec.ofNat 8 i.val) (Vector.ofFn fun i => BitVec.ofNat 8 i.val) =
      #v[0x61707865#32, 0x3320646E#32, 0x79622D32#32, 0x6B206574#32, 0x03020100#32, 0x07060504#32, 0x0B0A0908#32,
        0x0F0E0D0C#32, 0x13121110#32, 0x17161514#32, 0x1B1A1918#32, 0x1F1E1D1C#32, 0#32, 0#32, 0x03020100#32,
        0x07060504#32] := by decide +kernel

/-- V5.2, first four and last two bytes -/
theorem test_keystreamBlock_one :
    (keystreamBlock zeroKey zeroNonce 1).toList.take 4 = [0x9f#8, 0x07#8, 0xe7#8, 0xbe#8] ∧
      (keystreamBlock zeroKey zeroNonce 1).toList.drop 62 = [0x4d#8, 0x6f#8] := by decide +kernel

/-- V5.9: the counter's high half is word 13; first four bytes -/
theorem test_keystreamBlock_high :
    (keystreamBlock zeroKey zeroNonce (2 ^ 32)).toList.take 4 = [0x3d#8, 0xb4#8, 0x1d#8, 0x3a#8] := by decide +kernel

/-- V6.3 and V6.4 -/
theorem test_ctrInc :
    (ctrInc { Engine.erased with s := layout zeroKey zeroNonce 0xFFFFFFFF#32 5#32 }).s = layout zeroKey zeroNonce 0#32 6#32 ∧
      (ctrInc { Engine.erased with s := layout zeroKey zeroNonce 0xFFFFFFFF#32 0xFFFFFFFF#32 }).s =
        layout zeroKey zeroNonce 0#32 0#32 := by decide +kernel

/-! ## The commands, one step each (95_test_vectors.md sections 8 and 9) -/

/-- V8.1: the response, the first buffer byte and the flag -/
theorem test_init :
    outputs (machine Engine.erased [.command 0x00082001#32] (zeros 40)) = [.rsp 0x00000100#32] ∧
      Memory.readByte (nextState (step (machine Engine.erased [.command 0x00082001#32] (zeros 40)))).eng.buf 0 =
        some 0x76#8 := by decide +kernel

/-- V8.7 and P4 line 6: the key error wins; a wrong nonce on a running engine at cursor 10 -/
theorem test_init_errors :
    outputs (machine Engine.erased [.command 0x00071F01#32] (zeros 38)) = [.rsp 0x00000001#32] ∧
      outputs (machine (keyed 10#7) [.command 0x00092001#32] (zeros 41)) = [.rsp 0x000A0102#32] := by decide +kernel

/-- V8.10, and V8.2 in the erased state -/
theorem test_apply :
    outputs (machine (keyed 0#7) [.command 0x00000402#32] [0xff#8, 0xff#8, 0xff#8, 0xff#8]) =
      [.dout 0x89#8, .dout 0x47#8, .dout 0x1f#8, .dout 0x52#8, .rsp 0x00040100#32] ∧
      outputs (machine Engine.erased [.command 0x00000402#32] (zeros 4)) = [.rsp 0x00000003#32] := by decide +kernel

/-- P2 line 4: two bytes across the block boundary -/
theorem test_apply_boundary :
    outputs (machine (keyed 63#7) [.command 0x00000202#32] [0#8, 0#8]) =
      [.dout 0x86#8, .dout 0x9f#8, .rsp 0x00010100#32] := by decide +kernel

/-- V8.13 -/
theorem test_erase :
    outputs (machine (keyed 4#7) [.command 0x00000003#32] []) = [.rsp 0x00000000#32] ∧
      (nextState (step (machine (keyed 4#7) [.command 0x00000003#32] []))).eng = Engine.erased := by decide +kernel

/-- V8.15 and V8.16 -/
theorem test_illegal :
    outputs (machine (keyed 10#7) [.command 0x00000000#32] []) = [.rsp 0x000A0104#32] ∧
      outputs (machine (keyed 10#7) [.command 0x01082001#32] (zeros 40)) = [.rsp 0x000A0104#32] ∧
      (nextState (step (machine (keyed 10#7) [.command 0x01082001#32] (zeros 40)))).ports.din = [] := by decide +kernel

/-- R171 -/
theorem test_reset_cycle : (nextState (step (machine (keyed 9#7) [.resetCycle] []))).eng = State.reset.eng := by
  decide +kernel

/-- The header placed by `withFetchWord` is the command the next step runs (log entry 9): a bare INIT from reset fails on
its key length, a bare ERASE succeeds. -/
theorem test_withFetchWord :
    outputs (State.reset.withFetchWord 32 0x00000001) = [.rsp 0x00000001#32] ∧
      outputs (State.reset.withFetchWord 32 0x00000102) = [.rsp 0x00000003#32] ∧
      outputs (State.reset.withFetchWord 32 0x00000003) = [.rsp 0x00000000#32] := by decide +kernel

/-! ## Transfers (R51): a two-byte APPLY with its outputs taken late -/

theorem test_transfers :
    (transfers [.cmd 0x00000202#32, .din 0#8, .din 0#8, .dout, .dout, .rsp] ⟨keyed 0#7, .atRest, []⟩).map (·.out) =
      some [.dout 0x76#8, .dout 0xb8#8, .rsp 0x00020100#32] := by decide +kernel

/-- R51: no third payload byte, no response before the result bytes are taken. -/
theorem test_transfers_refused :
    transfers [.cmd 0x00000202#32, .din 0#8, .din 0#8, .din 0#8] ⟨keyed 0#7, .atRest, []⟩ = none ∧
      transfers [.cmd 0x00000202#32, .din 0#8, .din 0#8, .rsp] ⟨keyed 0#7, .atRest, []⟩ = none := by decide +kernel

/-- R120, R130, R41: an ERASE has done its work before its response is taken, and taking it changes nothing. -/
theorem test_transfers_work_before_response :
    (transfers [.cmd 0x00000003#32] ⟨keyed 9#7, .atRest, []⟩).map (·.eng) = some Engine.erased ∧
      (transfers [.cmd 0x00000003#32, .rsp] ⟨keyed 9#7, .atRest, []⟩).map (·.out) = some [.rsp 0x00000000#32] := by
  decide +kernel

/-! ## Witnesses: for every obligation with hypotheses, concrete data that meet all of them -/

theorem witness_DecodeOfEncodeIsTheCommand :
    (Instr.init 255 255).wellFormed = true ∧ (Instr.apply 0).wellFormed = true ∧
      (Instr.apply 16777215).wellFormed = true ∧ Instr.erase.wellFormed = true := by decide

theorem witness_EncodeOfDecodeIsTheHeader :
    decode 0x00FFFF01#32 = .instr (.init 255 255) ∧ decode 0xFFFFFF02#32 = .instr (.apply 16777215) ∧
      decode 3#32 = .instr .erase := by decide

theorem witness_PayloadTakenIsTheHeadersCount :
    ∃ (s t : State) (h : Word) (acts : List HostAct), s.ports.cmd = .command h :: acts ∧
      payloadLen h ≤ s.ports.din.length ∧ step s = .next t :=
  ⟨machine Engine.erased [.command 0x00000102#32] (zeros 1), _, 0x00000102#32, [], rfl, by decide,
    next_of_isNext (by decide +kernel)⟩

theorem witness_Rotl32MovesEveryBit : (1 ≤ 1 ∧ 1 ≤ 31) ∧ 1 ≤ 31 ∧ 31 ≤ 31 := by decide

theorem witness_QuarterRoundInPlaceFrame : [(0 : Fin 16), 5, 10, 15].Nodup ∧ (1 : Fin 16) ∉ [(0 : Fin 16), 5, 10, 15] := by
  decide

theorem witness_RoundOrderAndLanesDoNotMatter :
    columnGroups.reverse.Perm columnGroups ∧ diagonalGroups.reverse.Perm diagonalGroups ∧ 1 ≤ 1 ∧ 1 ≤ 4 ∧ 4 ≤ 4 :=
  ⟨List.reverse_perm _, List.reverse_perm _, by decide, by decide, by decide⟩

theorem witness_KeystreamBlockByCounter : 0 < 2 ^ 64 ∧ 2 ^ 64 - 1 < 2 ^ 64 := by decide

theorem witness_CounterIncrementsAsOneNumber : (11 : Fin 16) ≠ 12 ∧ (11 : Fin 16) ≠ 13 := by decide

theorem witness_RegenAdvancesThenGenerates : (14 : Fin 16) ≠ 12 ∧ (14 : Fin 16) ≠ 13 := by decide

theorem witness_InitBuildsTheEngine :
    ∃ (s : State) (key : Key) (nonce : Nonce) (rest : List Byte),
      s.ports.din = key.toList ++ nonce.toList ++ rest ∧ s.eng.ready = true :=
  ⟨machine (bare 5#7) [] (zeroKey.toList ++ zeroNonce.toList ++ [7#8]), zeroKey, zeroNonce, [7#8], rfl, rfl⟩

/-- A wrong key length, a wrong nonce length, both wrong and no payload at all. -/
theorem witness_InitWrongLengthChangesNothing :
    ∃ s : State, (31 + 8 ≤ s.ports.din.length ∧ (31 ≠ 32 ∨ 8 ≠ 8)) ∧ (32 + 9 ≤ s.ports.din.length ∧ (32 ≠ 32 ∨ 9 ≠ 8)) ∧
      (0 + 0 ≤ s.ports.din.length ∧ (0 ≠ 32 ∨ 0 ≠ 8)) :=
  ⟨machine Engine.erased [] (zeros 41), by decide⟩

theorem witness_StepByteXorsAndRegenerates :
    (bare 0#7).cur.toNat ≤ 63 ∧ (bare 62#7).cur.toNat < 63 ∧ (bare 63#7).cur.toNat = 63 := by decide

theorem witness_ApplyStepsEveryByteInOrder :
    (∃ s : State, s.eng.CanApply ∧ 0 ≤ s.ports.din.length ∧ 2 ≤ s.ports.din.length) ∧
      ∃ s : State, s.eng.ready = false ∧ 2 ≤ s.ports.din.length :=
  ⟨⟨machine (bare 63#7) [] (zeros 2), by decide, by decide, by decide⟩, machine Engine.erased [] (zeros 2), by decide⟩

theorem witness_ApplyNotReadyIsRefusedWithoutEffect :
    ∃ s : State, s.eng.ready = false ∧ 2 ≤ s.ports.din.length ∧ s.eng.cur = 0#7 :=
  ⟨machine Engine.erased [] (zeros 2), by decide⟩

/-- Cursor and length sum to 63, below a regeneration, and to 64, at one. -/
theorem witness_ApplyFrame :
    (∃ s t : State, exec (.apply 1) s = .next t ∧ s.eng.cur.toNat + 1 < 64) ∧
      ∃ s t : State, exec (.apply 1) s = .next t ∧ s.eng.cur.toNat + 1 = 64 :=
  ⟨⟨machine (bare 62#7) [] (zeros 1), _, next_of_isNext (by decide +kernel), by decide⟩,
    machine (bare 63#7) [] (zeros 1), _, next_of_isNext (by decide +kernel), by decide⟩

theorem witness_ApplyAdvancesThePosition :
    (∃ s t : State, s.eng.CanApply ∧ exec (.apply 0) s = .next t) ∧
      ∃ s t : State, s.eng.CanApply ∧ exec (.apply 1) s = .next t ∧ 64 ≤ s.eng.cur.toNat + 1 :=
  ⟨⟨machine (bare 0#7) [] [], _, by decide, next_of_isNext (by decide +kernel)⟩,
    machine (bare 63#7) [] (zeros 1), _, by decide, next_of_isNext (by decide +kernel), by decide⟩

theorem witness_SourceBytesDoNotInfluenceTheEngine :
    ∃ s₁ s₂ t₁ t₂ : State, s₁.eng = s₂.eng ∧ exec (.apply 1) s₁ = .next t₁ ∧ exec (.apply 1) s₂ = .next t₂ ∧
      s₁.ports.din ≠ s₂.ports.din :=
  ⟨machine (bare 5#7) [] [1#8], machine (bare 5#7) [] [2#8], _, _, rfl, next_of_isNext (by decide +kernel),
    next_of_isNext (by decide +kernel), by decide⟩

theorem witness_CounterOverflowIsSilent :
    ∃ s : State, s.eng.s = layout zeroKey zeroNonce 0xFFFFFFFF#32 0xFFFFFFFF#32 ∧ s.eng.ready = true ∧
      s.eng.cur = 63#7 ∧ 1 ≤ s.ports.din.length :=
  ⟨machine { bare 63#7 with s := layout zeroKey zeroNonce 0xFFFFFFFF#32 0xFFFFFFFF#32 } [] (zeros 1), rfl, rfl, rfl, by decide⟩

theorem witness_ChunkInvariance :
    ∃ s : State, s.eng.CanApply ∧ [0, 1, 62, 2].sum ≤ s.ports.din.length :=
  ⟨machine (bare 1#7) [] (zeros 65), by decide, by decide⟩

theorem witness_KeystreamLaw :
    ∃ (s : State) (src : List Byte), s.ports.din = zeroKey.toList ++ zeroNonce.toList ++ src ∧ [1, 0, 64].sum = src.length :=
  ⟨machine Engine.erased [] (zeroKey.toList ++ zeroNonce.toList ++ zeros 65), zeros 65, rfl, by decide⟩

/-- One byte: 0x00 encrypts to 0x76 (V8.9) and back. -/
theorem witness_ApplyTwiceRestoresTheData :
    ∃ s₁ s₂ t₁ u₁ t₂ u₂ : State,
      s₁.ports.din = zeroKey.toList ++ zeroNonce.toList ++ [0x00#8] ∧
      s₂.ports.din = zeroKey.toList ++ zeroNonce.toList ++ [0x76#8] ∧
      exec (.init 32 8) s₁ = .next t₁ ∧ exec (.apply 1) t₁ = .next u₁ ∧
      doutOf u₁.ports.out = doutOf s₁.ports.out ++ [0x76#8] ∧
      exec (.init 32 8) s₂ = .next t₂ ∧ exec (.apply 1) t₂ = .next u₂ :=
  ⟨machine Engine.erased [] (zeroKey.toList ++ zeroNonce.toList ++ [0x00#8]),
    machine Engine.erased [] (zeroKey.toList ++ zeroNonce.toList ++ [0x76#8]), _, _, _, _, rfl, rfl,
    next_of_isNext (by decide +kernel), next_of_isNext (by decide +kernel), by decide +kernel,
    next_of_isNext (by decide +kernel), next_of_isNext (by decide +kernel)⟩

theorem witness_ApplyBeyondTheBufferStops :
    (∃ s : State, s.eng.ready = true ∧ 64 ≤ s.eng.cur.toNat ∧ 1 ≤ 1 ∧ 1 ≤ s.ports.din.length) ∧ Engine.erased.Legal :=
  ⟨⟨machine (bare 64#7) [] (zeros 1), by decide⟩, by decide⟩

/-- The three kinds of illegal header, the second with its payload. -/
theorem witness_IllegalHeaderOnlyAnswers :
    ((∃ why, decode 0x00000004#32 = .illegal why) ∧ payloadLen 0x00000004#32 ≤ 0) ∧
      ((∃ why, decode 0x01082001#32 = .illegal why) ∧ payloadLen 0x01082001#32 ≤ (zeros 40).length) ∧
      ((∃ why, decode 0x00000103#32 = .illegal why) ∧ payloadLen 0x00000103#32 ≤ 0) ∧
      (machine Engine.erased [.command 0x01082001#32] (zeros 40)).ports.cmd = [.command 0x01082001#32] :=
  ⟨⟨⟨.unknownOpcode, by decide⟩, by decide⟩, ⟨⟨.reservedInit, by decide⟩, by decide⟩,
    ⟨⟨.reservedErase, by decide⟩, by decide⟩, rfl⟩

/-- A command for each of the five codes. -/
theorem witness_OneResponseWithTheFirstCode :
    ∀ c ∈ [((0x00000000#32 : Word), 0), (0x00081F01#32, 39), (0x00092001#32, 41), (0x00000102#32, 1), (0x00000003#32, 0)],
      ∃ s t : State, s.ports.cmd = [.command c.1] ∧ payloadLen c.1 ≤ s.ports.din.length ∧ step s = .next t := by
  intro c hc
  refine ⟨machine Engine.erased [.command c.1] (zeros c.2), _, rfl, ?_, next_of_isNext ?_⟩ <;>
    (revert c; decide +kernel)

theorem witness_ErrorsHaveNoEffect :
    ∀ c ∈ [((0x00000000#32 : Word), 0, StatusCode.errIllegal), (0x00081F01#32, 39, .errKeyLen),
        (0x00092001#32, 41, .errNonceLen), (0x00000102#32, 1, .errNotReady)],
      ∃ (s t : State) (r : Reply), s.ports.cmd = [.command c.1] ∧ payloadLen c.1 ≤ s.ports.din.length ∧
        commandReply c.1 (s.ports.din.take (payloadLen c.1)) s.eng = some r ∧ r.code ≠ .ok ∧ step s = .next t := by
  intro c hc
  refine ⟨machine Engine.erased [.command c.1] (zeros c.2.1), _, raiseError c.2.2 Engine.erased, rfl, ?_, ?_, ?_,
    next_of_isNext ?_⟩ <;> (revert c; decide +kernel)

/-- Two engines of one readiness, two payloads, an error on both. -/
theorem witness_ErrorsHaveNoEffect_code :
    (bare 1#7).ready = (bare 2#7).ready ∧
      commandReply 0x00081F01#32 (zeros 39) (bare 1#7) = some (raiseError .errKeyLen (bare 1#7)) ∧
      commandReply 0x00081F01#32 (zeros 39) (bare 2#7) = some (raiseError .errKeyLen (bare 2#7)) := by decide +kernel

/-- INIT, ERASE and another header, each with its payload and the cursor in range. -/
theorem witness_LifecycleIsTwoStates :
    ∀ c ∈ [((0x00082001#32 : Word), 40), (0x00000003#32, 0), (0x00000102#32, 1)],
      ∃ s : State, s.ports.cmd = [.command c.1] ∧ payloadLen c.1 ≤ s.ports.din.length ∧ s.eng.cur.toNat ≤ 63 := by
  intro c hc
  refine ⟨machine (bare 63#7) [.command c.1] (zeros c.2), rfl, ?_, Nat.le_refl 63⟩
  revert c; decide +kernel

theorem witness_OnlyInitSetsAndEraseOrResetClearsReady :
    (∃ s t : State, step s = .next t ∧ s.eng.ready = false ∧ t.eng.ready = true) ∧
      ∃ s t : State, step s = .next t ∧ s.eng.ready = true ∧ t.eng.ready = false :=
  ⟨⟨machine Engine.erased [.command 0x00082001#32] (zeros 40), _, next_of_isNext (by decide +kernel), rfl, by decide +kernel⟩,
    machine (bare 0#7) [.command 0x00000003#32] [], _, next_of_isNext (by decide +kernel), rfl, by decide +kernel⟩

/-- An APPLY over a block boundary, and an action that is none. -/
theorem witness_KeyAndNonceWordsAreImmutable :
    (∃ s t : State, step s = .next t ∧ s.eng.ready = true ∧ t.eng.ready = true ∧
      (¬∃ acts, s.ports.cmd = .command 0x00082001#32 :: acts) ∧ s.ports.cmd = .command 0x00000102#32 :: [] ∧
      (0x00000102#32 : Word).toNat % 256 = 2 ∧ s.eng.cur.toNat ≤ 63 ∧ t.eng.s ≠ s.eng.s) ∧
    ∃ s t : State, step s = .next t ∧ s.eng.ready = true ∧ t.eng.ready = true ∧
      (¬∃ acts, s.ports.cmd = .command 0x00082001#32 :: acts) ∧
      ∀ h acts, s.ports.cmd = .command h :: acts → h.toNat % 256 ≠ 2 :=
  ⟨⟨machine (bare 63#7) [.command 0x00000102#32] (zeros 1), _, next_of_isNext (by decide +kernel), rfl, by decide +kernel,
      by simp [machine], rfl, by decide, by decide, by decide +kernel⟩,
    machine (bare 63#7) [.command 0x00000001#32] [], _, next_of_isNext (by decide +kernel), rfl, by decide +kernel,
      by simp [machine], by simp +contextual [machine]⟩

theorem witness_ResetCycleZeroesTheBlock : (machine (bare 9#7) [.resetCycle] []).ports.cmd = .resetCycle :: [] := rfl

theorem legal_keyed (cur : BitVec 7) (h : cur.toNat ≤ 63) : (keyed cur).Legal := by
  simp [Engine.Legal, Engine.ConstantsInPlace, keyed, construct, blockGen, h]
  simp [loadState, layout]

theorem witness_CutCommandDeliversAPrefix :
    ∃ s : State, s.eng.Legal ∧ s.eng.ready = true ∧ s.ports.cmd = .commandThenReset 0x00000202#32 :: [] :=
  ⟨machine (keyed 63#7) [.commandThenReset 0x00000202#32] (zeros 2), legal_keyed _ (by decide), rfl, rfl⟩

/-- No action after the starved command, and a reset cycle after it; one byte short. -/
theorem witness_StarvedCommandWaitsForReset :
    (∃ s : State, s.ports.cmd = .command 0x00000202#32 :: [] ∧ s.ports.din.length < payloadLen 0x00000202#32 ∧
        ∀ rest, [] ≠ HostAct.resetCycle :: rest) ∧
      ∃ s : State, s.ports.cmd = .command 0x00000202#32 :: .resetCycle :: [] ∧
        s.ports.din.length < payloadLen 0x00000202#32 ∧ s.eng.Legal :=
  ⟨⟨machine (bare 0#7) [.command 0x00000202#32] (zeros 1), rfl, by decide, by simp⟩,
    machine (keyed 0#7) [.command 0x00000202#32, .resetCycle] (zeros 1), rfl, by decide, legal_keyed _ (by decide)⟩

theorem witness_StepRunsTheDecodedCommand :
    ∀ c ∈ [((0x00082001#32 : Word), Instr.init 32 8, 40), (0x00000202#32, .apply 2, 2), (0x00000003#32, .erase, 0)],
      ∃ s : State, s.ports.cmd = .command c.1 :: [] ∧ decode c.1 = .instr c.2.1 ∧ payloadLen c.1 ≤ s.ports.din.length := by
  intro c hc
  refine ⟨machine (bare 0#7) [.command c.1] (zeros c.2.2), rfl, ?_, ?_⟩ <;> (revert c; decide +kernel)

theorem witness_StepIsTheCommandFunction :
    ∃ s : State, s.ports.cmd = .command 0x00000202#32 :: [] ∧ payloadLen 0x00000202#32 ≤ s.ports.din.length ∧
      s.eng.cur.toNat ≤ 63 :=
  ⟨machine (bare 63#7) [.command 0x00000202#32] (zeros 2), rfl, by decide, by decide⟩

theorem witness_IdleStepChangesNothing : (machine (bare 3#7) [] (zeros 1)).ports.cmd = [] := rfl

theorem witness_StepKeepsLegal :
    (∃ s t : State, s.eng.Legal ∧ s.eng.ready = true ∧ step s = .next t) ∧
      ∃ s t : State, s.eng.Legal ∧ s.eng.ready = false ∧ step s = .next t :=
  ⟨⟨machine (keyed 63#7) [.command 0x00000102#32] (zeros 1), _, legal_keyed _ (by decide), rfl,
      next_of_isNext (by decide +kernel)⟩,
    machine Engine.erased [.command 0x00000102#32] (zeros 1), _, by decide, rfl, next_of_isNext (by decide +kernel)⟩

theorem witness_StepKeepsBufferCanonical :
    ∃ s t : State, Memory.wf s.eng.buf = true ∧ s.eng.buf ≠ [] ∧ step s = .next t :=
  ⟨machine { bare 0#7 with buf := [(0, 1#8), (63, 2#8)] } [.command 0x00000102#32] (zeros 1), _, by decide, by decide,
    next_of_isNext (by decide +kernel)⟩

theorem witness_EveryRunStaysLegal : ∃ s t : State, s.eng.Legal ∧ Reaches s t ∧ s.eng ≠ t.eng :=
  ⟨machine (keyed 62#7) [.command 0x00000102#32] (zeros 1), _, legal_keyed _ (by decide),
    .tail (.refl _) (next_of_isNext (by decide +kernel)), by decide +kernel⟩

theorem witness_StepIsTotalOnLegalStates :
    ∃ s : State, s.eng.Legal ∧ s.PayloadSupplied ∧ s.ports.cmd ≠ [] :=
  ⟨machine (keyed 63#7) [.command 0x00000102#32] (zeros 1), legal_keyed _ (by decide), by show payloadLen _ ≤ _; decide, by decide⟩

theorem witness_TransfersAgreeWithTheAtomicCommand :
    ∃ (p q : PortState) (ts : List Transfer), p.phase = .atRest ∧ (∀ t ∈ ts, t.ofCommand = true) ∧
      transfers (.cmd 0x00000102#32 :: ts) p = some q ∧ q.phase = .atRest :=
  ⟨⟨bare 0#7, .atRest, []⟩, ⟨bare 1#7, .atRest, [.dout 0#8, .rsp 0x00010100#32]⟩, [.din 0#8, .dout, .rsp], rfl, by decide,
    by decide +kernel, rfl⟩

/-- Taking a result byte, and taking the response. -/
theorem witness_TransfersAgreeWithTheAtomicCommand_noSideEffect :
    (transfer .dout ⟨bare 1#7, .busy 0x00000202#32 [0#8] [7#8], []⟩).isSome = true ∧
      (transfer .rsp ⟨bare 1#7, .answering .ok [], []⟩).isSome = true := by decide

/-- A command in the middle, and a full payload. -/
theorem witness_EveryCommandCanComplete :
    ∃ (p m : PortState) (ts : List Transfer) (payload : List Byte), p.phase = .atRest ∧ p.eng.Legal ∧
      (∀ t ∈ ts, t.ofCommand = true) ∧ transfers (.cmd 0x00000202#32 :: ts) p = some m ∧ m.phase ≠ .atRest ∧
      payload.length = payloadLen 0x00000202#32 :=
  ⟨⟨keyed 60#7, .atRest, []⟩, ⟨keyed 61#7, .busy 0x00000202#32 [0#8] [Memory.lookup 60 (keyed 60#7).buf], []⟩, [.din 0#8],
    zeros 2, rfl, legal_keyed _ (by decide), by decide, by decide +kernel, by decide +kernel, by decide⟩

theorem witness_ResetAtThePortsDeliversAPrefix :
    ∃ (p m q : PortState) (ts : List Transfer), p.phase = .atRest ∧ (∀ t ∈ ts, t.ofCommand = true) ∧
      transfers (.cmd 0x00000202#32 :: ts) p = some m ∧ m.phase ≠ .atRest ∧ transfer .rst m = some q :=
  ⟨⟨bare 0#7, .atRest, []⟩, ⟨bare 1#7, .busy 0x00000202#32 [0#8] [], [.dout 0#8]⟩, ⟨Engine.erased, .atRest, [.dout 0#8]⟩,
    [.din 0#8, .dout], rfl, by decide, by decide +kernel, by decide, by decide +kernel⟩

theorem witness_LinesSupplyWhatTheirHeadersAnnounce :
    (zeros 255).length < 256 ∧ (zeros 0).length < 256 ∧ (zeros 40).length < 2 ^ 24 := by
  simp only [zeros, List.length_replicate]; omega

end Sys2Proof.Tests
end

section
/-! # State: the reset state, and what a step keeps while the engine lives (spec/10_state.md R11, R20) -/

namespace Sys2Proof.Machine

/-! ## The reset state -/

/-- The erased buffer reads 0 at every address that exists (R20, R30). -/
@[simp] theorem readByte_nil {a : Nat} (h : a < 64) : Memory.readByte [] a = some 0#8 :=
  if_pos h

/-- Settles O45: the reset engine's literal values, and a buffer that lists nothing. -/
theorem resetStateIsAllZero : Obligations.ResetStateIsAllZero := by
  refine ⟨fun i => ?_, fun a => readByte_nil a.isLt, rfl, rfl, rfl⟩
  exact Vector.getElem_replicate i.isLt

/-! ## The decoder by header arithmetic -/

/-- The decoder on the number a header stands for (R52, R57). -/
theorem decode_eq_arith (h : Word) : decode h =
    if h.toNat % 2 ^ 8 = 1 then
      if h.toNat / 2 ^ 24 = 0 then .instr (.init (h.toNat / 2 ^ 8 % 2 ^ 8) (h.toNat / 2 ^ 16 % 2 ^ 8))
      else .illegal .reservedInit
    else if h.toNat % 2 ^ 8 = 2 then .instr (.apply (h.toNat / 2 ^ 8))
    else if h.toNat % 2 ^ 8 = 3 then
      if h.toNat / 2 ^ 8 = 0 then .instr .erase else .illegal .reservedErase
    else .illegal .unknownOpcode := by
  have top : h.toNat / 2 ^ 24 < 2 ^ 8 := by omega
  have high : h.toNat / 2 ^ 8 < 2 ^ 24 := by omega
  simp only [decode, headerOpc, headerRsvi, headerHigh, headerKlen, headerNlen, ← BitVec.toNat_inj,
    BitVec.extractLsb'_toNat, Nat.shiftRight_eq_div_pow, BitVec.toNat_ofNat, Nat.pow_zero, Nat.div_one,
    Nat.mod_eq_of_lt top, Nat.mod_eq_of_lt high, Nat.zero_mod]

/-- A header is an APPLY exactly by its low byte, whatever its length field (R53). -/
theorem exists_decode_apply_iff (h : Word) : (∃ len, decode h = .instr (.apply len)) ↔ h.toNat % 256 = 2 := by
  rw [decode_eq_arith]
  constructor
  · rintro ⟨len, hd⟩
    by_contra ho
    split_ifs at hd <;> simp_all
  · intro ho
    exact ⟨h.toNat / 2 ^ 8, by simp [ho]⟩

/-- The one header of an INIT with the legal lengths (R52, R55). -/
theorem header_of_decode_init_32_8 {h : Word} (hd : decode h = .instr (.init 32 8)) : h = 0x00082001#32 := by
  rw [decode_eq_arith] at hd
  obtain ⟨opc, rsvi, klen, nlen⟩ : h.toNat % 2 ^ 8 = 1 ∧ h.toNat / 2 ^ 24 = 0 ∧
      h.toNat / 2 ^ 8 % 2 ^ 8 = 32 ∧ h.toNat / 2 ^ 16 % 2 ^ 8 = 8 := by
    split_ifs at hd <;> simp_all
  have : h.toNat = 0x00082001 := by omega
  exact BitVec.eq_of_toNat_eq this

/-! ## The sixteen words under APPLY -/

/-- The words after some CTRINCs depend on the words before alone (R110). -/
theorem ctrInc_iterate_s_congr {e e' : Engine} (n : Nat) (h : e.s = e'.s) : (ctrInc^[n] e).s = (ctrInc^[n] e').s := by
  induction n generalizing e e' with
  | zero => exact h
  | succ n ih => exact ih (by simp only [ctrInc, h])

/-- STEP keeps every word but 12 and 13 (R11, R126). -/
theorem stepByte_s_other {b d : Byte} {e e' : Engine} (h : stepByte b e = some (e', d)) (i : Fin 16)
    (h12 : i ≠ 12) (h13 : i ≠ 13) : e'.s[i] = e.s[i] := by
  rcases (stepByte_cases h).2 with ⟨-, rfl, -⟩ | ⟨-, rfl⟩
  · rfl
  · rw [regen_s]
    exact ctrInc_other e i i.isLt (fun hi => h12 (Fin.ext hi)) (fun hi => h13 (Fin.ext hi))

/-- APPLY keeps every word but 12 and 13 (R11, R124). -/
theorem applyBytes_s_other {src dst : List Byte} {e e' : Engine} (h : applyBytes src e = some (e', dst)) (i : Fin 16)
    (h12 : i ≠ 12) (h13 : i ≠ 13) : e'.s[i] = e.s[i] := by
  induction src generalizing e dst with
  | nil =>
    obtain ⟨rfl, -⟩ : e = e' ∧ [] = dst := by simpa [applyBytes] using h
    rfl
  | cons b src ih =>
    obtain ⟨e1, d, ds, hs, hx, -⟩ := applyBytes_cons_some h
    exact (ih hx).trans (stepByte_s_other hs i h12 h13)

/-- APPLY does one CTRINC per block boundary it crosses (R11, R126). -/
theorem applyBytes_s {src dst : List Byte} {e e' : Engine} (h : applyBytes src e = some (e', dst))
    (hc : e.cur.toNat ≤ 63) : e'.s = (ctrInc^[(e.cur.toNat + src.length) / 64] e).s := by
  induction src generalizing e dst with
  | nil =>
    obtain ⟨rfl, -⟩ : e = e' ∧ [] = dst := by simpa [applyBytes] using h
    have none_crossed : (e.cur.toNat + ([] : List Byte).length) / 64 = 0 := by
      rw [List.length_nil]; omega
    rw [none_crossed]; rfl
  | cons b src ih =>
    obtain ⟨e1, d, ds, hs, hx, -⟩ := applyBytes_cons_some h
    rw [ih hx (stepByte_keeps hs).2, List.length_cons]
    rcases (stepByte_cases hs).2 with ⟨-, rfl, hcur⟩ | ⟨h63, rfl⟩
    · rw [hcur, Nat.add_right_comm, Nat.add_assoc]
      exact ctrInc_iterate_s_congr _ rfl
    · have one_crossed : (e.cur.toNat + (src.length + 1)) / 64 = src.length / 64 + 1 := by omega
      rw [one_crossed, Function.iterate_succ_apply, regen_cur]
      simpa using ctrInc_iterate_s_congr _ (regen_s e)

/-! ## A step that finds the engine ready and leaves it ready -/

/-- What a command can do between two ready engines: a successful INIT, an APPLY, or nothing. -/
theorem commandReply_ready_cases {h : Word} {p : List Byte} {e : Engine} {r : Reply}
    (hr : commandReply h p e = some r) (before : e.ready = true) (after : r.eng.ready = true) :
    h = 0x00082001#32 ∨ (h.toNat % 256 = 2 ∧ ∃ dst, applyBytes p e = some (r.eng, dst)) ∨
      (h.toNat % 256 ≠ 2 ∧ r.eng = e) := by
  have not_apply : (∀ len, decode h ≠ .instr (.apply len)) → h.toNat % 256 ≠ 2 :=
    fun hn ho => (exists_decode_apply_iff h).mpr ho |>.elim hn
  unfold commandReply at hr
  cases hd : decode h with
  | illegal why =>
    obtain rfl : illegalReply e = r := by simpa [hd] using hr
    exact .inr (.inr ⟨not_apply (by simp [hd]), rfl⟩)
  | instr i =>
    cases i with
    | init klen nlen =>
      obtain rfl : initReply klen nlen p e = r := by simpa [hd] using hr
      have refused := not_apply (by simp [hd])
      rcases initReply_cases klen nlen p e with ⟨-, hi⟩ | ⟨-, -, hi⟩ | ⟨rfl, rfl, -⟩
      · exact .inr (.inr ⟨refused, by rw [hi, raiseError_eng]⟩)
      · exact .inr (.inr ⟨refused, by rw [hi, raiseError_eng]⟩)
      · exact .inl (header_of_decode_init_32_8 hd)
    | apply len =>
      rcases applyReply_cases (by simpa [hd] using hr) with ⟨notReady, -⟩ | ⟨-, e', dst, ha, rfl⟩
      · simp [before] at notReady
      · exact .inr (.inl ⟨(exists_decode_apply_iff h).mp ⟨len, hd⟩, dst, ha⟩)
    | erase =>
      obtain rfl : eraseReply e = r := by simpa [hd] using hr
      simp [eraseReply, Engine.erased] at after

/-- What a step can do between two ready engines: a successful INIT, an APPLY, or nothing. A reset, alone or in a
command, leaves the engine erased. -/
theorem step_ready_cases {s t : State} (h : step s = .next t) (before : s.eng.ready = true)
    (after : t.eng.ready = true) :
    (∃ acts, s.ports.cmd = .command 0x00082001#32 :: acts) ∨
    (∃ hd acts dst, s.ports.cmd = .command hd :: acts ∧ hd.toNat % 256 = 2 ∧
      payloadLen hd ≤ s.ports.din.length ∧
      applyBytes (s.ports.din.take (payloadLen hd)) s.eng = some (t.eng, dst)) ∨
    ((∀ hd acts, s.ports.cmd = .command hd :: acts → hd.toNat % 256 ≠ 2) ∧ t.eng = s.eng) := by
  rcases step_next_cases h with ⟨hc, rfl⟩ | ⟨acts, -, rfl⟩ | ⟨hd, acts, -, hcut⟩ | ⟨hd, acts, r, hc, hl, hr, rfl⟩
  · exact .inr (.inr ⟨by simp [hc], rfl⟩)
  · simp [Engine.erased] at after
  · obtain ⟨gone, sent, m, -, -, -, rfl⟩ := abandon_next hcut
    simp [Engine.erased] at after
  · rcases commandReply_ready_cases hr before after with rfl | ⟨ho, dst, ha⟩ | ⟨ho, he⟩
    · exact .inl ⟨acts, hc⟩
    · exact .inr (.inl ⟨hd, acts, dst, hc, ho, hl, ha⟩)
    · refine .inr (.inr ⟨?_, he⟩)
      simpa [hc] using ho

/-- Settles O44: a step between two ready engines, a successful INIT aside, is an APPLY, whose words are counted by
`applyBytes_s`, or leaves the engine as it is. -/
theorem keyAndNonceWordsAreImmutable : Obligations.KeyAndNonceWordsAreImmutable := by
  intro s t h before after notInit
  rcases step_ready_cases h before after with init | ⟨hd, acts, dst, hc, ho, hl, ha⟩ | ⟨notApply, he⟩
  · exact absurd init notInit
  · refine ⟨applyBytes_s_other ha, fun hd' acts' hc' _ hcur => ?_, fun notApply => absurd ho (notApply hd acts hc)⟩
    obtain ⟨rfl, -⟩ : hd = hd' ∧ acts = acts' := by simpa [hc] using hc'
    simpa [hl] using applyBytes_s ha hcur
  · rw [he]
    exact ⟨fun _ _ _ => rfl, fun hd acts hc ho _ => absurd ho (notApply hd acts hc), fun _ => rfl⟩

end Sys2Proof.Machine
end

section
/-! # Headers: the opcode map, payload counts and illegal headers (spec/30_encoding.md R53, R54, R57) -/

namespace Sys2Proof.Machine

/-! ## Decoding by kind of header -/

/-- The six kinds of header, by OPC and the reserved fields, and what each decodes as (R53, R57). -/
theorem decode_cases (h : Word) :
    (h.toNat % 256 = 1 ∧ h.toNat / 2 ^ 24 = 0 ∧ ∃ klen nlen, decode h = .instr (.init klen nlen)) ∨
    (h.toNat % 256 = 1 ∧ h.toNat / 2 ^ 24 ≠ 0 ∧ decode h = .illegal .reservedInit) ∨
    (h.toNat % 256 = 2 ∧ ∃ len, decode h = .instr (.apply len)) ∨
    (h.toNat % 256 = 3 ∧ h.toNat / 2 ^ 8 = 0 ∧ decode h = .instr .erase) ∨
    (h.toNat % 256 = 3 ∧ h.toNat / 2 ^ 8 ≠ 0 ∧ decode h = .illegal .reservedErase) ∨
    ((h.toNat % 256 ≠ 1 ∧ h.toNat % 256 ≠ 2 ∧ h.toNat % 256 ≠ 3) ∧ decode h = .illegal .unknownOpcode) := by
  rw [decode_eq_arith]
  by_cases h1 : h.toNat % 2 ^ 8 = 1
  · by_cases hr : h.toNat / 2 ^ 24 = 0
    · exact .inl ⟨h1, hr, _, _, by rw [if_pos h1, if_pos hr]⟩
    · exact .inr (.inl ⟨h1, hr, by rw [if_pos h1, if_neg hr]⟩)
  by_cases h2 : h.toNat % 2 ^ 8 = 2
  · exact .inr (.inr (.inl ⟨h2, _, by rw [if_neg h1, if_pos h2]⟩))
  by_cases h3 : h.toNat % 2 ^ 8 = 3
  · by_cases hz : h.toNat / 2 ^ 8 = 0
    · exact .inr (.inr (.inr (.inl ⟨h3, hz, by rw [if_neg h1, if_neg h2, if_pos h3, if_pos hz]⟩)))
    · exact .inr (.inr (.inr (.inr (.inl ⟨h3, hz, by rw [if_neg h1, if_neg h2, if_pos h3, if_neg hz]⟩))))
  · exact .inr (.inr (.inr (.inr (.inr ⟨⟨h1, h2, h3⟩, by rw [if_neg h1, if_neg h2, if_neg h3]⟩))))

/-- A header is illegal exactly in the three cases of R57. -/
theorem exists_decode_illegal_iff (h : Word) : (∃ why, decode h = .illegal why) ↔
    (h.toNat % 256 ≠ 1 ∧ h.toNat % 256 ≠ 2 ∧ h.toNat % 256 ≠ 3) ∨ (h.toNat % 256 = 1 ∧ h.toNat / 2 ^ 24 ≠ 0) ∨
      (h.toNat % 256 = 3 ∧ h.toNat / 2 ^ 8 ≠ 0) := by
  rcases decode_cases h with ⟨ho, hr, klen, nlen, hd⟩ | ⟨ho, hr, hd⟩ |
    ⟨ho, len, hd⟩ | ⟨ho, hz, hd⟩ | ⟨ho, hz, hd⟩ | ⟨ho, hd⟩
  · exact iff_of_false (by simp [hd]) (by omega)
  · exact iff_of_true ⟨_, hd⟩ (.inr (.inl ⟨ho, hr⟩))
  · exact iff_of_false (by simp [hd]) (by omega)
  · exact iff_of_false (by simp [hd]) (by omega)
  · exact iff_of_true ⟨_, hd⟩ (.inr (.inr ⟨ho, hz⟩))
  · exact iff_of_true ⟨_, hd⟩ (.inl ho)

/-- A header is an INIT exactly by OPC and RSVI (R53). -/
theorem exists_decode_init_iff (h : Word) :
    (∃ klen nlen, decode h = .instr (.init klen nlen)) ↔ h.toNat % 256 = 1 ∧ h.toNat / 2 ^ 24 = 0 := by
  rcases decode_cases h with ⟨ho, hr, hd⟩ | ⟨ho, hr, hd⟩ |
    ⟨ho, len, hd⟩ | ⟨ho, hz, hd⟩ | ⟨ho, hz, hd⟩ | ⟨ho, hd⟩
  · exact iff_of_true hd ⟨ho, hr⟩
  all_goals exact iff_of_false (by simp [hd]) (by omega)

/-- A header is an ERASE exactly by OPC and RSVZ (R53). -/
theorem decode_erase_iff (h : Word) : decode h = .instr .erase ↔ h.toNat % 256 = 3 ∧ h.toNat / 2 ^ 8 = 0 := by
  rcases decode_cases h with ⟨ho, hr, klen, nlen, hd⟩ | ⟨ho, hr, hd⟩ |
    ⟨ho, len, hd⟩ | ⟨ho, hz, hd⟩ | ⟨ho, hz, hd⟩ | ⟨ho, hd⟩
  case inr.inr.inr.inl => exact iff_of_true hd ⟨ho, hz⟩
  all_goals exact iff_of_false (by simp [hd]) (by omega)

/-! ## The rows of the opcode map -/

/-- INIT's mask keeps OPC and RSVI and clears the two length fields (R52, R53). -/
theorem toNat_and_initMask (h : Word) :
    (h &&& 0xFF0000FF#32).toNat = h.toNat / 2 ^ 24 * 2 ^ 24 + h.toNat % 2 ^ 8 := by
  have opc : (h.toNat &&& 0xFF0000FF) % 2 ^ 8 = h.toNat % 2 ^ 8 := by
    rw [Nat.and_mod_two_pow]
    exact (Nat.and_two_pow_sub_one_eq_mod _ 8).trans (Nat.mod_mod _ _)
  have lengths : (h.toNat &&& 0xFF0000FF) / 2 ^ 8 % 2 ^ 16 = 0 := by
    rw [Nat.and_div_two_pow, Nat.and_mod_two_pow]
    exact Nat.and_zero _
  have rsvi : (h.toNat &&& 0xFF0000FF) / 2 ^ 24 = h.toNat / 2 ^ 24 := by
    rw [Nat.and_div_two_pow]
    exact (Nat.and_two_pow_sub_one_eq_mod _ 8).trans (Nat.mod_eq_of_lt (by omega))
  change h.toNat &&& 0xFF0000FF = _
  omega

theorem initRow_selects_iff (h : Word) :
    initRow.selects h = true ↔ h.toNat % 256 = 1 ∧ h.toNat / 2 ^ 24 = 0 := by
  rw [OpcodeRow.selects, initRow, beq_iff_eq, ← BitVec.toNat_inj, toNat_and_initMask, BitVec.toNat_ofNat]
  omega

theorem applyRow_selects_iff (h : Word) : applyRow.selects h = true ↔ h.toNat % 256 = 2 := by
  rw [OpcodeRow.selects, applyRow, beq_iff_eq, ← BitVec.toNat_inj, BitVec.toNat_and]
  exact Eq.congr_left (Nat.and_two_pow_sub_one_eq_mod _ 8)

theorem eraseRow_selects_iff (h : Word) :
    eraseRow.selects h = true ↔ h.toNat % 256 = 3 ∧ h.toNat / 2 ^ 8 = 0 := by
  have mask : h &&& 0xFFFFFFFF#32 = h := BitVec.and_allOnes
  rw [OpcodeRow.selects, eraseRow, beq_iff_eq, mask, ← BitVec.toNat_inj, BitVec.toNat_ofNat]
  omega

/-- Settles O4: rows and decoder are the same conditions on OPC and the reserved fields; two rows have different
OPC. -/
theorem headerSelectsRowOfItsCommand : Obligations.HeaderSelectsRowOfItsCommand := by
  intro h
  have selInit := initRow_selects_iff h
  have selApply := applyRow_selects_iff h
  have selErase := eraseRow_selects_iff h
  refine ⟨?_, ?_, ?_, ?_, ?_, ?_, ?_⟩
  · exact beq_iff_eq.symm.trans (selInit.trans (exists_decode_init_iff h).symm)
  · exact beq_iff_eq.symm.trans (selApply.trans (exists_decode_apply_iff h).symm)
  · exact beq_iff_eq.symm.trans (selErase.trans (decode_erase_iff h).symm)
  · rw [exists_decode_illegal_iff, ← Bool.not_eq_true, ← Bool.not_eq_true, ← Bool.not_eq_true, selInit, selApply,
      selErase]
    omega
  · rw [selInit, selApply]
    omega
  · rw [selInit, selErase]
    omega
  · rw [selApply, selErase]
    omega

/-! ## The payload count -/

/-- The payload count on the number a header stands for (R54). -/
theorem payloadLen_eq_arith (h : Word) : payloadLen h =
    if h.toNat % 2 ^ 8 = 0x01 then h.toNat / 2 ^ 8 % 2 ^ 8 + h.toNat / 2 ^ 16 % 2 ^ 8
    else if h.toNat % 2 ^ 8 = 0x02 then h.toNat / 2 ^ 8 else 0 := by
  have high : h.toNat / 2 ^ 8 < 2 ^ 24 := by omega
  simp only [payloadLen, headerOpc, headerHigh, headerKlen, headerNlen, ← BitVec.toNat_inj,
    BitVec.extractLsb'_toNat, Nat.shiftRight_eq_div_pow, BitVec.toNat_ofNat, Nat.pow_zero, Nat.div_one,
    Nat.mod_eq_of_lt high]

/-- Settles O5: every supplied command goes through `conclude`, which takes the payload before it looks at what became
of the command. -/
theorem payloadTakenIsTheHeadersCount : Obligations.PayloadTakenIsTheHeadersCount := by
  refine ⟨payloadLen_eq_arith, fun s t h acts hc hl ht => ?_⟩
  rw [step_supplied hc hl] at ht
  obtain ⟨-, r, -, rfl⟩ := conclude_next ht
  exact ⟨by simp, by simp⟩

/-! ## Illegal headers -/

theorem commandReply_illegal {h : Word} {why : IllegalHeader} (hd : decode h = .illegal why) (p : List Byte)
    (e : Engine) : commandReply h p e = some (illegalReply e) := by
  simp [commandReply, hd]

/-- An illegal header sends one response and nothing else (R132). -/
@[simp] theorem illegalReply_outputs (e : Engine) :
    (illegalReply e).outputs = [.rsp (responseWord .errIllegal e)] := rfl

@[simp] theorem illegalReply_eng (e : Engine) : (illegalReply e).eng = e := rfl

/-- Settles O38: the three cases of R57, and the reply that raises ERR_ILLEGAL, carried to its response. -/
theorem illegalHeaderOnlyAnswers : Obligations.IllegalHeaderOnlyAnswers := by
  refine fun h => ⟨exists_decode_illegal_iff h, fun s acts ⟨why, hd⟩ hc hl => ?_⟩
  rw [step_supplied hc hl, conclude_supplied (s := s.setCmd acts) hl (commandReply_illegal hd _ _),
    illegalReply_outputs, illegalReply_eng]
  rfl

end Sys2Proof.Machine
end

section
/-! # The Core Transform: word operations, the quarter-round in place, MIX20 (spec/40_core_transform.md R80 to R88) -/

namespace Sys2Proof.Machine

/-! ## ADD32 -/

theorem add32_toNat (a b : Word) : (add32 a b).toNat = (a.toNat + b.toNat) % 2 ^ 32 :=
  BitVec.toNat_add a b

theorem add32_comm (a b : Word) : add32 a b = add32 b a :=
  BitVec.add_comm a b

theorem add32_assoc (a b c : Word) : add32 (add32 a b) c = add32 a (add32 b c) :=
  BitVec.add_assoc a b c

@[simp] theorem add32_zero (a : Word) : add32 a 0#32 = a :=
  BitVec.add_zero a

/-- Settles O6: the laws of addition modulo 2^32, and the rule's three values computed. -/
theorem add32IsSumModulo : Obligations.Add32IsSumModulo :=
  ⟨add32_toNat, add32_comm, add32_assoc, add32_zero, by decide, by decide, by decide⟩

/-! ## ROTL32 -/

/-- The two shifts of ROTL32 have no set bit in common: the left one has only bits from `n` up, the right one only
bits below `n`. This is why their sum carries nothing (R82). -/
theorem shiftLeft_and_ushiftRight_eq_zero (x : Word) {n : Nat} (h : n ≤ 32) :
    x <<< n &&& x >>> (32 - n) = 0#32 := by
  ext i hi
  rw [BitVec.getElem_and, BitVec.getElem_shiftLeft, BitVec.getElem_ushiftRight, BitVec.getElem_zero]
  by_cases low : i < n
  · simp [low]
  · simp [BitVec.getLsbD_of_ge x (32 - n + i) (by omega)]

/-- ROTL32 as a number, with no reduction of the sum (R82). -/
theorem rotl32_toNat (x : Word) {n : Nat} (h : n ≤ 32) :
    (rotl32 x n).toNat = x.toNat * 2 ^ n % 2 ^ 32 + x.toNat / 2 ^ (32 - n) := by
  rw [rotl32, BitVec.toNat_add_of_and_eq_zero (shiftLeft_and_ushiftRight_eq_zero x h), BitVec.toNat_shiftLeft,
    BitVec.toNat_ushiftRight, Nat.shiftLeft_eq, Nat.shiftRight_eq_div_pow]

/-- The spec's sum of two shifts is the library's rotation. -/
theorem rotl32_eq_rotateLeft (x : Word) {n : Nat} (h : n < 32) : rotl32 x n = x.rotateLeft n := by
  rw [rotl32, BitVec.add_eq_or_of_and_eq_zero _ _ (shiftLeft_and_ushiftRight_eq_zero x h.le), BitVec.rotateLeft_def,
    Nat.mod_eq_of_lt h]

/-- Every bit of ROTL32 comes from the bit `n` places below it, cyclically (R82, read backwards). -/
theorem rotl32_getLsbD (x : Word) {n j : Nat} (hn : n < 32) (hj : j < 32) :
    (rotl32 x n).getLsbD j = x.getLsbD ((j + (32 - n)) % 32) := by
  rw [rotl32_eq_rotateLeft x hn, BitVec.getLsbD_rotateLeft, Nat.mod_eq_of_lt hn]
  by_cases wraps : j < n
  · have source : (j + (32 - n)) % 32 = 32 - n + j := by omega
    simp [wraps, source]
  · have source : (j + (32 - n)) % 32 = j - n := by omega
    simp [wraps, source, hj]

/-- A word whose bits are all alike is fixed by ROTL32. -/
theorem rotl32_eq_self_of_bits_alike {x : Word} {n : Nat} (hn : n < 32) (v : Bool)
    (alike : ∀ i, i < 32 → x.getLsbD i = v) : rotl32 x n = x := by
  refine BitVec.eq_of_getLsbD_eq fun j hj => ?_
  rw [rotl32_getLsbD x hn hj, alike j hj, alike _ (Nat.mod_lt _ (by decide))]

/-- Settles O7: bit `(i + n) mod 32` of the result comes from bit `i`, and words of equal bits are fixed. -/
theorem rotl32MovesEveryBit : Obligations.Rotl32MovesEveryBit := by
  refine ⟨fun x n _ h31 => ?_, by decide, by decide⟩
  have hn : n < 32 := by omega
  refine ⟨rotl32_toNat x hn.le, fun i hi => ?_, ?_, ?_⟩
  · have source : ((i + n) % 32 + (32 - n)) % 32 = i := by omega
    rw [rotl32_getLsbD x hn (Nat.mod_lt _ (by decide)), source]
  · exact rotl32_eq_self_of_bits_alike hn false fun _ _ => BitVec.getLsbD_zero
  · exact rotl32_eq_self_of_bits_alike hn true (by decide)

/-! ## QRAT -/

/-- The word QRAT leaves at each position, the roles read from d back to a (R84). -/
theorem qrAt_getElem (x : Words) (g : WordGroup) (m : Fin 16) :
    (qrAt x g)[m.val] =
      if g.d = m then (qrOf x g).2.2.2 else if g.c = m then (qrOf x g).2.2.1 else if g.b = m then (qrOf x g).2.1
        else if g.a = m then (qrOf x g).1 else x[m.val] :=
  putGroup_getElem x g (qrOf x g) m

/-- Settles O10: each of four distinct indices meets its own role, and `qrAt_other` is the frame. -/
theorem quarterRoundInPlaceFrame : Obligations.QuarterRoundInPlaceFrame := by
  intro x i j k l distinct
  simp only [List.nodup_cons, List.mem_cons, List.not_mem_nil, or_false, not_or] at distinct
  obtain ⟨⟨hij, hik, hil⟩, ⟨hjk, hjl⟩, hkl, -⟩ := distinct
  refine ⟨?_, fun m outside => ?_⟩
  · simp [qrAt_getElem, qrOf, Ne.symm hij, Ne.symm hik, Ne.symm hil, Ne.symm hjk, Ne.symm hjl, Ne.symm hkl]
  · simp only [List.mem_cons, List.not_mem_nil, or_false, not_or] at outside
    obtain ⟨hi, hj, hk, hl⟩ := outside
    exact qrAt_other x ⟨i, j, k, l⟩ m (Ne.symm hi) (Ne.symm hj) (Ne.symm hk) (Ne.symm hl)

/-! ## MIX20 -/

/-- A double round is one pass over the column groups and then the diagonal groups (R85 to R87). -/
theorem doubleRound_eq_foldl (x : Words) : doubleRound x = (columnGroups ++ diagonalGroups).foldl qrAt x := by
  rw [List.foldl_append, doubleRound, diagRound, colRound]

/-- `n` double rounds are one pass over `n` copies of their eight groups (R88). -/
theorem mixRounds_eq_foldl (n : Nat) (x : Words) :
    mixRounds n x = (List.replicate n (columnGroups ++ diagonalGroups)).flatten.foldl qrAt x := by
  induction n generalizing x with
  | zero => rfl
  | succ n ih => rw [mixRounds, ih, doubleRound_eq_foldl, List.replicate_succ, List.flatten_cons, ← List.foldl_append]

/-- Settles O13: ten double rounds of eight groups each; the double round is defined as its two rounds. -/
theorem mixIsEightyQuarterRounds : Obligations.MixIsEightyQuarterRounds :=
  ⟨mixRounds_eq_foldl 10, rfl, fun _ => rfl⟩

end Sys2Proof.Machine
end

section
/-! # The block generator: words and bytes, the initial state, the counter's overflow (spec/41_block_generator.md
R100 to R112) -/

namespace Sys2Proof.Machine

/-! ## Words and bytes -/

/-- LE32 as a number (R100). -/
theorem le32_toNat (b0 b1 b2 b3 : Byte) :
    (le32 b0 b1 b2 b3).toNat = b0.toNat + b1.toNat * 2 ^ 8 + b2.toNat * 2 ^ 16 + b3.toNat * 2 ^ 24 := by
  simp only [le32, BitVec.toNat_append, ← Nat.shiftLeft_add_eq_or_of_lt (BitVec.isLt _)]
  omega

/-- A byte of SER32 as a number (R101). -/
theorem serByte_toNat (w : Word) (k : Nat) : (serByte w k).toNat = w.toNat / 2 ^ (8 * k) % 256 := by
  rw [serByte, BitVec.extractLsb'_toNat, Nat.shiftRight_eq_div_pow]

/-- Byte `k` of an assembled word is the byte that went in at position `k` (R100, R101). -/
theorem serByte_le32 (f : Fin 4 → Byte) (k : Fin 4) : serByte (le32 (f 0) (f 1) (f 2) (f 3)) k.val = f k := by
  refine BitVec.eq_of_toNat_eq ?_
  rw [serByte_toNat, le32_toNat]
  fin_cases k <;> (dsimp; omega)

theorem ser32_le32 (b0 b1 b2 b3 : Byte) : ser32 (le32 b0 b1 b2 b3) = (b0, b1, b2, b3) := by
  have byte := serByte_le32 ![b0, b1, b2, b3]
  exact Prod.ext (byte 0) (Prod.ext (byte 1) (Prod.ext (byte 2) (byte 3)))

theorem le32_serByte (w : Word) : le32 (serByte w 0) (serByte w 1) (serByte w 2) (serByte w 3) = w := by
  refine BitVec.eq_of_toNat_eq ?_
  rw [le32_toNat]
  simp only [serByte_toNat]
  omega

/-- Settles O17: both inverses on the numbers the words and bytes stand for. -/
theorem wordByteConversionIsLittleEndian : Obligations.WordByteConversionIsLittleEndian :=
  ⟨fun b0 b1 b2 b3 => ⟨le32_toNat b0 b1 b2 b3, ser32_le32 b0 b1 b2 b3⟩, fun w => ⟨rfl, le32_serByte w⟩⟩

/-! ## SERIALIZE -/

/-- Byte `k` of word `w` in a serialised block (R103). -/
theorem serialize_getElem_word (x : Words) (w : Fin 16) {k : Nat} (hk : k < 4) :
    (serialize x)[4 * w.val + k]'(by omega) = serByte x[w] k := by
  have word : (4 * w.val + k) / 4 = w.val := by omega
  have byte : (4 * w.val + k) % 4 = k := by omega
  simp [word, byte]

/-- Settles O18: by words, the four bytes of `serialize_getElem_word`; by bytes, `serByte` as a number. -/
theorem serializeIsLittleEndianByWord : Obligations.SerializeIsLittleEndianByWord := by
  refine fun x => ⟨fun w => ?_, fun j => ?_⟩
  · have byte0 := serialize_getElem_word x w (k := 0) (by decide)
    simp only [Nat.add_zero] at byte0
    rw [ser32, byte0, serialize_getElem_word x w (by decide : 1 < 4), serialize_getElem_word x w (by decide : 2 < 4),
      serialize_getElem_word x w (by decide : 3 < 4)]
  · rw [← serByte_toNat]
    exact congrArg BitVec.toNat (serialize_getElem x j.val j.isLt)

/-! ## LOADSTATE -/

/-- Key byte `4i+k` is byte `k` of key word `i` (R104). -/
theorem serByte_keyWord (key : Key) (i : Fin 8) (k : Fin 4) :
    serByte (keyWord key i) k.val = key[4 * i.val + k.val]'(by omega) :=
  serByte_le32 (fun k => key[4 * i.val + k.val]'(by omega)) k

/-- Nonce byte `4i+k` is byte `k` of nonce word `i` (R104). -/
theorem serByte_nonceWord (nonce : Nonce) (i : Fin 2) (k : Fin 4) :
    serByte (nonceWord nonce i) k.val = nonce[4 * i.val + k.val]'(by omega) :=
  serByte_le32 (fun k => nonce[4 * i.val + k.val]'(by omega)) k

section
variable (key : Key) (nonce : Nonce) (low high : Word)

/-- Words 4 to 11 of a loaded state are the key (R10, R104). -/
theorem layout_key (i : Fin 8) : (layout key nonce low high)[4 + i.val]'(by omega) = keyWord key i := by
  match i with
  | 0 | 1 | 2 | 3 | 4 | 5 | 6 | 7 => rfl

/-- Words 14 and 15 of a loaded state are the nonce (R10, R104). -/
theorem layout_nonce (i : Fin 2) : (layout key nonce low high)[14 + i.val]'(by omega) = nonceWord nonce i := by
  match i with
  | 0 | 1 => rfl

@[simp] theorem layout_low : (layout key nonce low high)[12] = low := rfl

@[simp] theorem layout_high : (layout key nonce low high)[13] = high := rfl

/-- Writing the counter words of a loaded state gives the state with that counter (R12). -/
@[simp] theorem layout_set_counter (low' high' : Word) :
    ((layout key nonce low high).set 12 low').set 13 high' = layout key nonce low' high' := rfl

end

/-- Settles O19: the constants and the counter stand in `layout`; key and nonce are four bytes to a word. -/
theorem loadStateLayout : Obligations.LoadStateLayout := by
  refine fun key nonce => ⟨rfl, rfl, rfl, rfl, fun i k => ?_, rfl, rfl, fun i k => ?_⟩
  · rw [loadState, layout_key]
    exact serByte_keyWord key i k
  · rw [loadState, layout_nonce]
    exact serByte_nonceWord nonce i k

/-! ## The counter at its overflow -/

/-- CTRINC on a loaded state moves the counter halves and nothing else (R110). -/
theorem ctrInc_s_of_layout {e : Engine} {key : Key} {nonce : Nonce} {low high : Word}
    (h : e.s = layout key nonce low high) :
    (ctrInc e).s = layout key nonce (add32 low 1#32) (if add32 low 1#32 = 0#32 then add32 high 1#32 else high) := by
  simp only [ctrInc, h, layout_low, layout_high, layout_set_counter]

/-- The counter after 2^64 - 1 is 0 (R111). -/
theorem ctrInc_s_of_layout_last {e : Engine} {key : Key} {nonce : Nonce}
    (h : e.s = layout key nonce 0xFFFFFFFF#32 0xFFFFFFFF#32) : (ctrInc e).s = loadState key nonce := by
  have wraps : add32 0xFFFFFFFF#32 1#32 = 0#32 := by decide
  rw [ctrInc_s_of_layout h, wraps, if_pos rfl, loadState]

theorem counter_of_s_loadState {e : Engine} {key : Key} {nonce : Nonce} (h : e.s = loadState key nonce) :
    e.counter = 0 := by
  simp [Engine.counter, h, loadState]

/-- Keystream block 0 is the block of the initial state (R106). -/
theorem keystreamBlock_zero (key : Key) (nonce : Nonce) :
    keystreamBlock key nonce 0 = blockGenBytes (loadState key nonce) := by
  simp only [keystreamBlock, loadState, Nat.zero_mod, Nat.zero_div]

/-- After REGEN the buffer is the block of the new state (R112). -/
theorem readByte_regen (e : Engine) (a : Fin 64) :
    Memory.readByte (regen e).buf a.val = some (blockGenBytes (regen e).s)[a] := by
  rw [regen_buf, readByte_ofBlock _ _ a.isLt, regen_s, Fin.getElem_fin]

/-- STEP on the last byte of a block regenerates (R126). -/
theorem stepByte_last (b : Byte) {e : Engine} (h : e.cur = 63#7) :
    stepByte b e = some (regen e, b ^^^ Memory.lookup e.cur.toNat e.buf) := by
  have advanced : e.cur + 1#7 = 64#7 := by rw [h]; decide
  rw [stepByte_inRange (by rw [h]; decide), if_pos advanced]
  rfl

/-- APPLY on a ready engine, carried to its response (R124). -/
theorem exec_apply_ready {s : State} {len : Nat} {e' : Engine} {dst : List Byte} (ready : s.eng.ready = true)
    (supplied : len ≤ s.ports.din.length) (h : applyBytes (s.ports.din.take len) s.eng = some (e', dst)) :
    exec (.apply len) s = .next (((s.setDin (s.ports.din.drop len)).setEng e').send
      (dst.map .dout ++ [.rsp (responseWord .ok e')])) := by
  have reply : applyReply (s.ports.din.take len) s.eng = some ⟨e', dst, .ok⟩ := by simp [applyReply, ready, h]
  exact conclude_supplied supplied reply

/-- The response of a successful command on a ready engine at the start of a block (R60, R150). -/
theorem responseWord_ok_blockStart {e : Engine} (ready : e.ready = true) (cur : e.cur = 0#7) :
    responseWord .ok e = 0x00000100#32 := by
  rw [responseWord, readyBit, ready, cur]
  decide

/-- Settles O32: the one byte is the last of its block, so APPLY leaves the regenerated engine, whose counter has
wrapped. -/
theorem counterOverflowIsSilent : Obligations.CounterOverflowIsSilent := by
  intro s key nonce hs ready cur supplied
  obtain ⟨d, applied⟩ : ∃ d, applyBytes (s.ports.din.take 1) s.eng = some (regen s.eng, [d]) := by
    obtain ⟨b, rest, hdin⟩ := List.exists_cons_of_length_pos supplied
    exact ⟨b ^^^ Memory.lookup s.eng.cur.toNat s.eng.buf, by simp [hdin, applyBytes, stepByte_last b cur]⟩
  have wrapped : (regen s.eng).s = loadState key nonce := (regen_s _).trans (ctrInc_s_of_layout_last hs)
  have stays : (regen s.eng).ready = true := (regen_ready _).trans ready
  refine ⟨_, d, exec_apply_ready ready supplied applied, wrapped, counter_of_s_loadState wrapped, stays, regen_cur _,
    fun a => ?_, ?_⟩
  · rw [keystreamBlock_zero, ← wrapped]
    exact readByte_regen s.eng a
  · rw [responseWord_ok_blockStart stays (regen_cur _)]
    rfl

end Sys2Proof.Machine
end

section
/-! # The engine commands: INIT, STEP, APPLY, ERASE (spec/42_engine_commands.md R120 to R130) -/

namespace Sys2Proof.Machine

/-! ## INIT -/

/-- The first 32 payload bytes are the key (R55). -/
@[simp] theorem keyOf_key_append (key : Key) (tail : List Byte) : keyOf (key.toList ++ tail) = key := by
  refine Vector.ext fun i hi => ?_
  simp [keyOf, payloadByte, List.getElem?_append_left]

/-- The payload bytes after the key are the nonce (R55). -/
@[simp] theorem nonceOf_key_append_nonce (key : Key) (nonce : Nonce) : nonceOf (key.toList ++ nonce.toList) = nonce := by
  refine Vector.ext fun i hi => ?_
  simp [nonceOf, payloadByte, Config.keyBytes, List.getElem?_append_right]

section
variable (key : Key) (nonce : Nonce) (e : Engine)

@[simp] theorem construct_s : (construct key nonce e).s = loadState key nonce := by
  simp only [construct, blockGen_s]

@[simp] theorem construct_buf :
    (construct key nonce e).buf = Memory.ofBlock (blockGenBytes (loadState key nonce)) := by
  simp only [construct, blockGen_buf]

@[simp] theorem construct_cur : (construct key nonce e).cur = 0#7 := rfl

@[simp] theorem construct_ready : (construct key nonce e).ready = true := rfl

end

/-- INIT between payload and response (R120). -/
theorem exec_init (klen nlen : Nat) (s : State) :
    exec (.init klen nlen) s = conclude (klen + nlen) (fun p e => some (initReply klen nlen p e)) s := rfl

/-- INIT with the legal lengths, carried to its response (R120, R122). -/
theorem exec_init_success {s : State} {key : Key} {nonce : Nonce} {rest : List Byte}
    (supplied : s.ports.din = key.toList ++ nonce.toList ++ rest) :
    exec (.init 32 8) s = .next (((s.setDin rest).setEng (construct key nonce s.eng)).send
      [.rsp 0x00000100#32]) := by
  have length : (key.toList ++ nonce.toList).length = 32 + 8 := by simp
  have taken : s.ports.din.take (32 + 8) = key.toList ++ nonce.toList := by
    rw [supplied, ← length, List.take_left]
  have left : s.ports.din.drop (32 + 8) = rest := by rw [supplied, ← length, List.drop_left]
  have reply : initReply 32 8 (s.ports.din.take (32 + 8)) s.eng = ⟨construct key nonce s.eng, [], .ok⟩ := by
    simp [taken, initReply, Config.keyBytes, Config.nonceBytes]
  have enough : 32 + 8 ≤ s.ports.din.length := by
    rw [supplied, List.length_append, length]; omega
  rw [exec_init, conclude_supplied enough rfl, reply, left,
    ← responseWord_ok_blockStart (construct_ready key nonce s.eng) (construct_cur key nonce s.eng)]
  rfl

/-- Settles O24: INIT leaves the engine `construct` builds, whose buffer is the block of the loaded state. -/
theorem initBuildsTheEngine : Obligations.InitBuildsTheEngine := by
  intro s key nonce rest supplied
  refine ⟨_, exec_init_success supplied, ?_⟩
  have words := construct_s key nonce s.eng
  refine ⟨words, counter_of_s_loadState words, fun a => ?_, ?_, construct_cur .., construct_ready .., rfl, rfl⟩
  · simp [keystreamBlock_zero]
  · simp

/-- A command that raises an error, carried to its response: the payload is gone, one response is sent, the engine is
as it was (R156). -/
theorem conclude_raiseError {n : Nat} {run : List Byte → Engine → Option Reply} {s : State} {code : StatusCode}
    (supplied : n ≤ s.ports.din.length) (raised : run (s.ports.din.take n) s.eng = some (raiseError code s.eng)) :
    conclude n run s = .next
      { eng := s.eng
        ports := { cmd := s.ports.cmd, din := s.ports.din.drop n
                   out := s.ports.out ++ [.rsp (responseWord code s.eng)] }
        draws := s.draws } :=
  conclude_supplied supplied raised

/-- INIT with a wrong length raises one of two errors, the key's first (R121, R123). -/
theorem initReply_wrongLength {klen nlen : Nat} (wrong : klen ≠ 32 ∨ nlen ≠ 8) (p : List Byte) (e : Engine) :
    initReply klen nlen p e = raiseError (if klen ≠ 32 then .errKeyLen else .errNonceLen) e := by
  rcases initReply_cases klen nlen p e with ⟨hk, reply⟩ | ⟨hk, -, reply⟩ | ⟨hk, hn, -⟩
  · rw [reply, if_pos hk]
  · rw [reply, if_neg (not_not_intro hk)]
  · omega

/-- Settles O25: the reply of a wrong length is an error, and an error leaves the engine as it is. -/
theorem initWrongLengthChangesNothing : Obligations.InitWrongLengthChangesNothing :=
  fun s klen nlen supplied wrong => (exec_init klen nlen s).trans
    (conclude_raiseError supplied (congrArg some (initReply_wrongLength wrong _ s.eng)))

/-! ## STEP -/

/-- The engine STEP leaves, which no source byte enters (R126). -/
def Engine.advance (e : Engine) : Engine :=
  if e.cur.toNat = 63 then regen e else { e with cur := e.cur + 1#7 }

/-- STEP, where it has a result, leaves the advanced engine (R126). -/
theorem stepByte_eng {b d : Byte} {e e' : Engine} (h : stepByte b e = some (e', d)) : e' = e.advance := by
  rcases (stepByte_cases h).2 with ⟨below, rfl, -⟩ | ⟨last, rfl⟩
  · rw [Engine.advance, if_neg below.ne]
  · rw [Engine.advance, if_pos last]

/-- Settles O26: below 63 the cursor moves without wrapping, at 63 it is the cursor REGEN overwrites. -/
theorem stepByteXorsAndRegenerates : Obligations.StepByteXorsAndRegenerates := by
  intro b e inRange
  have stepped := stepByte_inRange (b := b) inRange
  obtain ⟨ready, cur⟩ := stepByte_keeps stepped
  refine ⟨_, _, if_pos (Nat.lt_succ_of_le inRange), stepped, fun below => ?_, fun last => ?_, ready, cur⟩
  · have advanced : e.cur + 1#7 = BitVec.ofNat 7 (e.cur.toNat + 1) := by bv_omega
    have notLast : e.cur + 1#7 ≠ 64#7 := by bv_omega
    rw [if_neg notLast, advanced]
  · have wraps : e.cur + 1#7 = 64#7 := by bv_omega
    rw [if_pos wraps, wraps]

/-! ## APPLY -/

/-- The fold of STEP as a chain of engines: source byte `i` meets the engine advanced `i` times (R124). -/
theorem applyBytes_chain {src dst : List Byte} {e e' : Engine} (h : applyBytes src e = some (e', dst)) :
    e' = Engine.advance^[src.length] e ∧ ∀ i, i < src.length →
      stepByte (src.getD i 0#8) (Engine.advance^[i] e) = some (Engine.advance^[i + 1] e, dst.getD i 0#8) := by
  induction src generalizing e dst with
  | nil =>
    obtain ⟨rfl, -⟩ : e = e' ∧ [] = dst := by simpa [applyBytes] using h
    exact ⟨rfl, fun i hi => absurd hi (Nat.not_lt_zero i)⟩
  | cons b src ih =>
    obtain ⟨e1, d, ds, hs, hx, rfl⟩ := applyBytes_cons_some h
    obtain rfl := stepByte_eng hs
    obtain ⟨last, chain⟩ := ih hx
    refine ⟨last, fun i hi => ?_⟩
    cases i with
    | zero => exact hs
    | succ i => exact chain i (Nat.lt_of_succ_lt_succ hi)

/-- APPLY on an engine that is not ready, carried to its response (R125). -/
theorem exec_apply_notReady {s : State} {len : Nat} (notReady : s.eng.ready = false)
    (supplied : len ≤ s.ports.din.length) :
    exec (.apply len) s = .next
      { eng := s.eng
        ports := { cmd := s.ports.cmd, din := s.ports.din.drop len
                   out := s.ports.out ++ [.rsp (responseWord .errNotReady s.eng)] }
        draws := s.draws } :=
  conclude_raiseError supplied (if_pos notReady)

/-- Settles O27: the fold cannot stop on an engine with its cursor in range, and its chain of engines is the advanced
ones. -/
theorem applyStepsEveryByteInOrder : Obligations.ApplyStepsEveryByteInOrder := by
  refine fun s len supplied => ⟨fun ⟨ready, inRange⟩ => ?_, fun notReady => exec_apply_notReady notReady supplied⟩
  obtain ⟨e', dst, applied⟩ := applyBytes_total (s.ports.din.take len) inRange
  obtain ⟨dstLength, keepsReady, -⟩ := applyBytes_keeps applied
  obtain ⟨last, chain⟩ := applyBytes_chain applied
  rw [List.length_take_of_le supplied] at dstLength last chain
  subst last
  refine ⟨fun i => Engine.advance^[i] s.eng, dst, rfl, dstLength, fun i hi => ?_, keepsReady.trans ready, ?_⟩
  · have byte : (s.ports.din.take len).getD i 0#8 = s.ports.din.getD i 0#8 := by simp [hi]
    rw [← byte]
    exact chain i hi
  · rw [exec_apply_ready ready supplied applied, List.append_assoc]
    rfl

/-- Settles O28: the refusal, and its word with READY and CUR 0. -/
theorem applyNotReadyIsRefusedWithoutEffect : Obligations.ApplyNotReadyIsRefusedWithoutEffect := by
  refine fun s len notReady supplied => ⟨exec_apply_notReady notReady supplied, fun cur => ?_⟩
  rw [responseWord, readyBit, notReady, cur]
  decide

/-! ## ERASE -/

/-- ERASE, carried to its response (R130, R131). -/
theorem exec_erase (s : State) :
    exec .erase s = .next ((s.setEng State.reset.eng).send [.rsp 0x00000000#32]) := by
  have reply : eraseReply s.eng = ⟨State.reset.eng, [], .ok⟩ := by
    rw [eraseReply, eraseEngine_eq]; rfl
  have response : responseWord .ok State.reset.eng = 0x00000000#32 := by decide
  rw [exec, execErase, conclude_supplied (Nat.zero_le _) rfl, reply, ← response]
  rfl

/-- Settles O37: ERASE leaves the engine of hardware reset, whose elements `resetStateIsAllZero` lists. -/
theorem eraseZeroesEverything : Obligations.EraseZeroesEverything := by
  obtain ⟨words, bytes, cur, ready, -⟩ := resetStateIsAllZero
  exact fun s => ⟨_, exec_erase s, words, bytes, cur, ready, rfl, rfl, rfl⟩

end Sys2Proof.Machine
end

section
/-! # Exceptions: a command that reports an error has no effect (spec/60_exceptions.md R155, R156) -/

namespace Sys2Proof.Machine

/-- The code a header is answered with: the first error that applies, found in the header and `ready` alone (R155). -/
def headerStatus (h : Word) (ready : Bool) : StatusCode :=
  match decode h with
  | .instr (.init klen nlen) => if klen ≠ 32 then .errKeyLen else if nlen ≠ 8 then .errNonceLen else .ok
  | .instr (.apply _) => if ready then .ok else .errNotReady
  | .instr .erase => .ok
  | .illegal _ => .errIllegal

/-- A command is error entry with the code its header and `ready` determine, or it succeeds where they determine OK:
no command writes or emits anything before it reports an error. -/
theorem commandReply_cases {h : Word} {p : List Byte} {e : Engine} {r : Reply} (replied : commandReply h p e = some r) :
    r = raiseError (headerStatus h e.ready) e ∨ (r.code = .ok ∧ headerStatus h e.ready = .ok) := by
  unfold commandReply at replied
  unfold headerStatus
  cases decoded : decode h with
  | illegal why =>
    obtain rfl : illegalReply e = r := by simpa [decoded] using replied
    exact .inl rfl
  | instr i =>
    cases i with
    | init klen nlen =>
      obtain rfl : initReply klen nlen p e = r := by simpa [decoded] using replied
      rcases initReply_cases klen nlen p e with ⟨hk, reply⟩ | ⟨rfl, hn, reply⟩ | ⟨rfl, rfl, reply⟩
      · exact .inl (by simp [reply, hk])
      · exact .inl (by simp [reply, hn])
      · exact .inr (by simp [reply])
    | apply len =>
      rcases applyReply_cases (by simpa [decoded] using replied) with ⟨notReady, rfl⟩ | ⟨ready, -, -, -, rfl⟩
      · exact .inl (by simp [notReady])
      · exact .inr (by simp [ready])
    | erase =>
      obtain rfl : eraseReply e = r := by simpa [decoded] using replied
      exact .inr ⟨rfl, rfl⟩

/-- The code of a reply depends on neither the payload nor, but for `ready`, the engine (R155, R156). -/
theorem commandReply_code {h : Word} {p : List Byte} {e : Engine} {r : Reply} (replied : commandReply h p e = some r) :
    r.code = headerStatus h e.ready := by
  rcases commandReply_cases replied with rfl | ⟨ok, status⟩
  · rfl
  · rw [ok, status]

/-- A reply with an error code is error entry with that code (R156). -/
theorem commandReply_error {h : Word} {p : List Byte} {e : Engine} {r : Reply} (replied : commandReply h p e = some r)
    (error : r.code ≠ .ok) : r = raiseError r.code e := by
  rcases commandReply_cases replied with rfl | ⟨ok, -⟩
  · rfl
  · exact absurd ok error

/-- Settles O41: an error is error entry, carried to its response with the engine as it was; its code is the one the
header and `ready` determine. -/
theorem errorsHaveNoEffect : Obligations.ErrorsHaveNoEffect := by
  refine ⟨fun s t h acts r hc supplied replied error ht => ?_, fun h p p' e e' r r' alike replied replied' => ?_⟩
  · have raised := replied.trans (congrArg some (commandReply_error replied error))
    rw [step_supplied hc supplied, conclude_raiseError (s := s.setCmd acts) supplied raised] at ht
    obtain rfl := Host.Outcome.next.inj ht
    exact ⟨rfl, rfl, rfl, rfl, rfl⟩
  · rw [commandReply_code replied, commandReply_code replied', alike]

end Sys2Proof.Machine
end

section
/-! # Encoder and decoder are inverse, and command lines use the encoder (spec/30_encoding.md R52 to R64) -/

namespace Sys2Proof.Machine

/-! ## Headers as numbers -/

/-- Fields side by side add up, each at its weight. -/
theorem toNat_append_eq_add {m n : Nat} (x : BitVec m) (y : BitVec n) :
    (x ++ y).toNat = x.toNat * 2 ^ n + y.toNat := by
  rw [BitVec.toNat_append, ← Nat.shiftLeft_add_eq_or_of_lt y.isLt, Nat.shiftLeft_eq]

/-- An INIT header as a number: NLEN, KLEN and OPC at their bit positions (R52). -/
theorem encode_init_toNat (klen nlen : Nat) :
    (encode (.init klen nlen)).toNat = nlen % 2 ^ 8 * 2 ^ 16 + klen % 2 ^ 8 * 2 ^ 8 + 1 := by
  simp only [encode, toNat_append_eq_add, BitVec.toNat_ofNat]
  omega

/-- An APPLY header as a number: LEN and OPC at their bit positions (R52). -/
theorem encode_apply_toNat (len : Nat) : (encode (.apply len)).toNat = len % 2 ^ 24 * 2 ^ 8 + 2 := by
  simp only [encode, toNat_append_eq_add, BitVec.toNat_ofNat]

theorem encode_erase_toNat : (encode .erase).toNat = 3 := rfl

/-! ## Both directions -/

/-- Settles O2: no length in range loses a bit in its field, and OPC and the reserved fields are those the decoder
looks for. -/
theorem decodeOfEncodeIsTheCommand : Obligations.DecodeOfEncodeIsTheCommand := by
  intro i wf
  cases i with
  | init klen nlen =>
    obtain ⟨hk, hn⟩ : klen < 256 ∧ nlen < 256 := by simpa [Instr.wellFormed] using wf
    have number := encode_init_toNat klen nlen
    have opc : (encode (.init klen nlen)).toNat % 2 ^ 8 = 1 := by omega
    have rsvi : (encode (.init klen nlen)).toNat / 2 ^ 24 = 0 := by omega
    have klenField : (encode (.init klen nlen)).toNat / 2 ^ 8 % 2 ^ 8 = klen := by omega
    have nlenField : (encode (.init klen nlen)).toNat / 2 ^ 16 % 2 ^ 8 = nlen := by omega
    rw [decode_eq_arith, if_pos opc, if_pos rsvi, klenField, nlenField]
  | apply len =>
    have hl : len < 16777216 := by simpa [Instr.wellFormed] using wf
    have number := encode_apply_toNat len
    have opc : (encode (.apply len)).toNat % 2 ^ 8 = 2 := by omega
    have lenField : (encode (.apply len)).toNat / 2 ^ 8 = len := by omega
    rw [decode_eq_arith, if_neg (by omega), if_pos opc, lenField]
  | erase => rfl

/-- Settles O3: by kind of header; the fields the decoder reads, put back at their positions, add up to the header. -/
theorem encodeOfDecodeIsTheHeader : Obligations.EncodeOfDecodeIsTheHeader := by
  intro h i hd
  have width : h.toNat < 2 ^ 32 := h.isLt
  rw [decode_eq_arith] at hd
  split_ifs at hd with opcInit rsvi opcApply opcErase rsvz
  · obtain rfl := Decoded.instr.inj hd
    refine ⟨?_, BitVec.eq_of_toNat_eq ?_⟩
    · simp only [Instr.wellFormed, Bool.and_eq_true, decide_eq_true_eq]; omega
    · rw [encode_init_toNat]; omega
  · obtain rfl := Decoded.instr.inj hd
    refine ⟨?_, BitVec.eq_of_toNat_eq ?_⟩
    · simp only [Instr.wellFormed, decide_eq_true_eq]; omega
    · rw [encode_apply_toNat]; omega
  · obtain rfl := Decoded.instr.inj hd
    refine ⟨rfl, BitVec.eq_of_toNat_eq ?_⟩
    rw [encode_erase_toNat]; omega

/-- Settles O1: each of the seventeen headers is decoded and counted. -/
theorem headerExamplesDecodeAndCount : Obligations.HeaderExamplesDecodeAndCount := by
  unfold Obligations.HeaderExamplesDecodeAndCount
  decide

/-! ## Command lines -/

/-- The header a line encodes for a well-formed command decodes to it and announces its payload (R54, R62). -/
theorem encoded_header {i : Instr} (wf : i.wellFormed = true) :
    payloadLen (encode i) = i.payload ∧ decode (encode i) = .instr i :=
  have decoded := decodeOfEncodeIsTheCommand i wf
  ⟨payloadLen_of_decode decoded, decoded⟩

/-- Settles O60: lines go through `SourceLine.expand` and the encoder, whose headers `encoded_header` describes. -/
theorem linesSupplyWhatTheirHeadersAnnounce : Obligations.LinesSupplyWhatTheirHeadersAnnounce := by
  refine ⟨fun key nonce => ⟨rfl, fun hk hn => ⟨_, rfl, ?_⟩⟩, fun src => ⟨rfl, rfl, fun hl => ⟨_, rfl, ?_⟩⟩, fun n => ?_,
    fun _ _ => rfl, rfl, rfl, rfl, rfl⟩
  · exact encoded_header (by simp [Instr.wellFormed, hk, hn])
  · exact encoded_header (by simpa [Instr.wellFormed] using hl)
  · rfl

end Sys2Proof.Machine
end

section
/-! # The step: what it does to the engine, the invariants it keeps, and that it is total (spec/10_state.md R15, R18,
R19, 42_engine_commands.md R135, 70_reset_and_hazards.md R182, R183) -/

namespace Sys2Proof.Machine

/-! ## What a command does to the engine -/

/-- The engine a command leaves: built by the one successful INIT header, erased by the one ERASE header, advanced by
the source bytes of an APPLY header, or as it was (R135). -/
theorem commandReply_eng_cases {h : Word} {p : List Byte} {e : Engine} {r : Reply}
    (replied : commandReply h p e = some r) :
    (h = 0x00082001#32 ∧ r.eng = construct (keyOf p) (nonceOf p) e) ∨
    (h = 0x00000003#32 ∧ r.eng = Engine.erased) ∨
    (h.toNat % 256 = 2 ∧ e.ready = true ∧ ∃ dst, applyBytes p e = some (r.eng, dst)) ∨
    (h ≠ 0x00082001#32 ∧ h ≠ 0x00000003#32 ∧ r.eng = e) := by
  have kept : decode h ≠ .instr (.init 32 8) → decode h ≠ .instr .erase → r.eng = e →
      h ≠ 0x00082001#32 ∧ h ≠ 0x00000003#32 ∧ r.eng = e :=
    fun notInit notErase eng => ⟨fun eq => notInit (eq ▸ by decide), fun eq => notErase (eq ▸ by decide), eng⟩
  unfold commandReply at replied
  cases hd : decode h with
  | illegal why =>
    obtain rfl : illegalReply e = r := by simpa [hd] using replied
    exact .inr (.inr (.inr (kept (by simp [hd]) (by simp [hd]) rfl)))
  | instr i =>
    cases i with
    | init klen nlen =>
      obtain rfl : initReply klen nlen p e = r := by simpa [hd] using replied
      rcases initReply_cases klen nlen p e with ⟨hk, reply⟩ | ⟨-, hn, reply⟩ | ⟨rfl, rfl, reply⟩
      · exact .inr (.inr (.inr (kept (by simp [hd, hk]) (by simp [hd]) (by rw [reply, raiseError_eng]))))
      · exact .inr (.inr (.inr (kept (by simp [hd, hn]) (by simp [hd]) (by rw [reply, raiseError_eng]))))
      · exact .inl ⟨header_of_decode_init_32_8 hd, by rw [reply]⟩
    | apply len =>
      rcases applyReply_cases (by simpa [hd] using replied) with ⟨-, rfl⟩ | ⟨ready, e', dst, applied, rfl⟩
      · exact .inr (.inr (.inr (kept (by simp [hd]) (by simp [hd]) rfl)))
      · exact .inr (.inr (.inl ⟨(exists_decode_apply_iff h).mp ⟨len, hd⟩, ready, dst, applied⟩))
    | erase =>
      obtain rfl : eraseReply e = r := by simpa [hd] using replied
      obtain ⟨-, number⟩ := encodeOfDecodeIsTheHeader h .erase hd
      exact .inr (.inl ⟨number.symm, eraseEngine_eq e⟩)

/-- The engine a step leaves: as it was, erased by a reset, or left by a command. -/
theorem step_eng_cases {s t : State} (ht : step s = .next t) :
    t.eng = s.eng ∨ t.eng = Engine.erased ∨
      ∃ h p r, commandReply h p s.eng = some r ∧ t.eng = r.eng := by
  rcases step_next_cases ht with ⟨-, rfl⟩ | ⟨acts, -, rfl⟩ | ⟨h, acts, -, cut⟩ | ⟨h, acts, r, -, -, replied, rfl⟩
  · exact .inl rfl
  · exact .inr (.inl rfl)
  · obtain ⟨gone, dst, m, -, -, -, rfl⟩ := abandon_next cut
    exact .inr (.inl rfl)
  · exact .inr (.inr ⟨h, _, r, replied, rfl⟩)

/-! ## A property of the engine that every step keeps -/

theorem advance_last {e : Engine} (last : e.cur.toNat = 63) : e.advance = regen e := if_pos last

theorem advance_below {e : Engine} (notLast : e.cur.toNat ≠ 63) : e.advance = { e with cur := e.cur + 1#7 } :=
  if_neg notLast

@[simp] theorem advance_ready (e : Engine) : e.advance.ready = e.ready := by
  by_cases last : e.cur.toNat = 63
  · rw [advance_last last, regen_ready]
  · rw [advance_below last]

/-- What STEP keeps on ready engines, APPLY keeps. -/
theorem advance_iterate_keeps {P : Engine → Prop} (advance : ∀ e : Engine, e.ready = true → P e → P e.advance) (n : Nat)
    {e : Engine} (ready : e.ready = true) (he : P e) : P (Engine.advance^[n] e) := by
  induction n generalizing e with
  | zero => exact he
  | succ n ih => exact ih ((advance_ready e).trans ready) (advance e ready he)

/-- A property of the engine is kept by every step if the erased engine and every constructed one have it and STEP on a
ready engine keeps it. -/
theorem step_keeps {P : Engine → Prop} (erased : P Engine.erased)
    (constructed : ∀ key nonce e, P (construct key nonce e))
    (advance : ∀ e : Engine, e.ready = true → P e → P e.advance)
    {s t : State} (ht : step s = .next t) (hs : P s.eng) : P t.eng := by
  rcases step_eng_cases ht with eng | eng | ⟨h, p, r, replied, eng⟩
  · rw [eng]; exact hs
  · rw [eng]; exact erased
  rw [eng]
  rcases commandReply_eng_cases replied with ⟨-, left⟩ | ⟨-, left⟩ | ⟨-, ready, dst, applied⟩ | ⟨-, -, left⟩
  · rw [left]; exact constructed _ _ _
  · rw [left]; exact erased
  · rw [(applyBytes_chain applied).1]; exact advance_iterate_keeps advance _ ready hs
  · rw [left]; exact hs

/-! ## Legal engines -/

theorem legal_iff_of_ready {e : Engine} (ready : e.ready = true) :
    e.Legal ↔ e.ConstantsInPlace ∧ e.buf = Memory.ofBlock (blockGenBytes e.s) ∧ e.cur.toNat ≤ 63 := by
  rw [Engine.Legal, if_pos ready]

theorem legal_iff_of_notReady {e : Engine} (notReady : e.ready = false) : e.Legal ↔ e = Engine.erased := by
  rw [Engine.Legal, notReady, if_neg Bool.false_ne_true]

theorem erased_legal : Engine.erased.Legal := (legal_iff_of_notReady rfl).mpr rfl

theorem construct_legal (key : Key) (nonce : Nonce) (e : Engine) : (construct key nonce e).Legal := by
  rw [legal_iff_of_ready (construct_ready key nonce e), Engine.ConstantsInPlace, construct_buf, construct_s, construct_cur]
  exact ⟨⟨rfl, rfl, rfl, rfl⟩, rfl, Nat.zero_le 63⟩

/-- REGEN keeps the constants and leaves the block of its own words in the buffer (R112). -/
theorem regen_legal {e : Engine} (ready : e.ready = true) (constants : e.ConstantsInPlace) : (regen e).Legal := by
  rw [legal_iff_of_ready ((regen_ready e).trans ready), Engine.ConstantsInPlace, regen_buf, regen_s, regen_cur]
  refine ⟨?_, rfl, Nat.zero_le 63⟩
  simpa only [ctrInc_other e _ _ (by decide : (0 : Nat) ≠ 12) (by decide),
    ctrInc_other e _ _ (by decide : (1 : Nat) ≠ 12) (by decide),
    ctrInc_other e _ _ (by decide : (2 : Nat) ≠ 12) (by decide),
    ctrInc_other e _ _ (by decide : (3 : Nat) ≠ 12) (by decide)] using constants

/-- STEP keeps a ready engine legal (R18, R126). -/
theorem advance_legal (e : Engine) (ready : e.ready = true) (legal : e.Legal) : e.advance.Legal := by
  obtain ⟨constants, buf, cur⟩ := (legal_iff_of_ready ready).mp legal
  by_cases last : e.cur.toNat = 63
  · rw [advance_last last]
    exact regen_legal ready constants
  · rw [advance_below last]
    have inRange : (e.cur + 1#7).toNat ≤ 63 := by bv_omega
    exact (legal_iff_of_ready (e := { e with cur := e.cur + 1#7 }) ready).mpr ⟨constants, buf, inRange⟩

/-- Settles O52: erased and constructed engines are legal, and STEP keeps a ready engine legal. -/
theorem stepKeepsLegal : Obligations.StepKeepsLegal :=
  fun _ _ legal ht => step_keeps erased_legal construct_legal advance_legal ht legal

/-- Settles O53: reset leaves the erased engine. -/
theorem resetStateIsLegal : Obligations.ResetStateIsLegal := erased_legal

/-- A legal engine's buffer is one `Memory.ofBlock` wrote, or lists nothing. -/
theorem Engine.Legal.wf_buf {e : Engine} (legal : e.Legal) : Memory.wf e.buf = true := by
  cases ready : e.ready with
  | false => rw [(legal_iff_of_notReady ready).mp legal]; rfl
  | true =>
    obtain ⟨-, buf, -⟩ := (legal_iff_of_ready ready).mp legal
    rw [buf, wf_ofBlock]

theorem Engine.Legal.cur_le {e : Engine} (legal : e.Legal) : e.cur.toNat ≤ 63 := by
  cases ready : e.ready with
  | false => rw [(legal_iff_of_notReady ready).mp legal]; exact Nat.zero_le 63
  | true => exact ((legal_iff_of_ready ready).mp legal).2.2

/-! ## The buffer's canonical form -/

/-- Settles O54: STEP either keeps the buffer or writes a whole block to it. -/
theorem stepKeepsBufferCanonical : Obligations.StepKeepsBufferCanonical := by
  intro s t wf ht
  refine step_keeps (P := fun e => Memory.wf e.buf = true) rfl (fun key nonce e => ?_) (fun e _ he => ?_) ht wf
  · rw [construct_buf, wf_ofBlock]
  · by_cases last : e.cur.toNat = 63
    · rw [advance_last last, regen_buf, wf_ofBlock]
    · rw [advance_below last]
      exact he

/-! ## Runs -/

/-- What the host has taken stays taken. -/
theorem step_out {s t : State} (ht : step s = .next t) : ∃ outs, t.ports.out = s.ports.out ++ outs := by
  rcases step_next_cases ht with ⟨-, rfl⟩ | ⟨acts, -, rfl⟩ | ⟨h, acts, -, cut⟩ | ⟨h, acts, r, -, -, -, rfl⟩
  · exact ⟨[], (List.append_nil _).symm⟩
  · exact ⟨[], (List.append_nil _).symm⟩
  · obtain ⟨gone, dst, m, -, -, -, rfl⟩ := abandon_next cut
    exact ⟨_, rfl⟩
  · exact ⟨_, rfl⟩

/-- Settles O55: by induction over the run, one step at a time; form and cursor are part of being legal. -/
theorem everyRunStaysLegal : Obligations.EveryRunStaysLegal := by
  intro s t legal run
  suffices kept : t.eng.Legal ∧ ∃ outs, t.ports.out = s.ports.out ++ outs from
    ⟨kept.1, kept.1.wf_buf, kept.1.cur_le, kept.2⟩
  induction run with
  | refl => exact ⟨legal, [], (List.append_nil _).symm⟩
  | tail run ht ih =>
    obtain ⟨legal', outs, sent⟩ := ih
    obtain ⟨more, sent'⟩ := step_out ht
    exact ⟨stepKeepsLegal _ _ legal' ht, outs ++ more, by rw [sent', sent, List.append_assoc]⟩

/-! ## The step by the host's action -/

/-- Settles O51: with nothing to fetch there is nothing to do. -/
theorem idleStepChangesNothing : Obligations.IdleStepChangesNothing := by
  intro s hc
  simp [step, takeTurn, hc]

theorem step_resetCycle {s : State} {acts : List HostAct} (hc : s.ports.cmd = .resetCycle :: acts) :
    step s = .next ((s.setCmd acts).setEng Engine.erased) := by
  simp [step, takeTurn, hc]

/-- Settles O46: a reset cycle leaves the erased engine, whose elements `resetStateIsAllZero` lists. -/
theorem resetCycleZeroesTheBlock : Obligations.ResetCycleZeroesTheBlock := by
  obtain ⟨words, bytes, cur, ready, -⟩ := resetStateIsAllZero
  exact fun s acts hc => ⟨_, step_resetCycle hc, words, bytes, cur, ready, rfl, rfl⟩

/-- Settles O49: a supplied command is fetched whatever follows it, and its decoded form is run. -/
theorem stepRunsTheDecodedCommand : Obligations.StepRunsTheDecodedCommand := by
  intro s h i acts hc hd hl
  refine ⟨payloadLen_of_decode hd, ?_⟩
  simp only [step, takeTurn_supplied hc hl, runHeader, hd]
  rfl

/-- With the cursor in range every command has its reply (R182 "It is total"). -/
theorem commandReply_total (h : Word) (p : List Byte) {e : Engine} (inRange : e.cur.toNat ≤ 63) :
    ∃ r, commandReply h p e = some r := by
  unfold commandReply
  cases decode h with
  | illegal why => exact ⟨_, rfl⟩
  | instr i =>
    cases i with
    | init klen nlen => exact ⟨_, rfl⟩
    | erase => exact ⟨_, rfl⟩
    | apply len =>
      obtain ⟨e', dst, applied⟩ := applyBytes_total p inRange
      cases ready : e.ready with
      | false => exact ⟨_, if_pos ready⟩
      | true => exact ⟨⟨e', dst, .ok⟩, by simp [applyReply, ready, applied]⟩

/-- Settles O50: the reply exists, and `conclude` carries it from payload to response. -/
theorem stepIsTheCommandFunction : Obligations.StepIsTheCommandFunction := by
  intro s h acts hc hl inRange
  obtain ⟨r, replied⟩ := commandReply_total h (s.ports.din.take (payloadLen h)) inRange
  refine ⟨r, replied, ?_⟩
  rw [step_supplied hc hl, conclude_supplied (s := s.setCmd acts) hl replied, Reply.outputs, List.append_assoc]
  rfl

/-! ## The lifecycle -/

/-- The header decides readiness after a command (R135). -/
theorem commandReply_ready {h : Word} {p : List Byte} {e : Engine} {r : Reply} (replied : commandReply h p e = some r) :
    r.eng.ready = if h = 0x00082001#32 then true else if h = 0x00000003#32 then false else e.ready := by
  rcases commandReply_eng_cases replied with ⟨rfl, eng⟩ | ⟨rfl, eng⟩ | ⟨opc, -, dst, applied⟩ | ⟨notInit, notErase, eng⟩
  · rw [eng, construct_ready, if_pos rfl]
  · rw [eng, if_neg (by decide), if_pos rfl]; rfl
  · have notInit : h ≠ 0x00082001#32 := fun eq => absurd (eq ▸ opc) (by decide)
    have notErase : h ≠ 0x00000003#32 := fun eq => absurd (eq ▸ opc) (by decide)
    rw [if_neg notInit, if_neg notErase, (applyBytes_keeps applied).2.1]
  · rw [eng, if_neg notInit, if_neg notErase]

/-- Settles O42: the step is the command function, and its reply's readiness is the header's. -/
theorem lifecycleIsTwoStates : Obligations.LifecycleIsTwoStates := by
  intro s h acts hc hl inRange
  obtain ⟨r, replied, stepped⟩ := stepIsTheCommandFunction s h acts hc hl inRange
  exact ⟨_, stepped, commandReply_ready replied⟩

/-- Settles O43: of the four kinds of step, doing nothing keeps `ready`, the two resets clear it, and a command does what
its header says. -/
theorem onlyInitSetsAndEraseOrResetClearsReady : Obligations.OnlyInitSetsAndEraseOrResetClearsReady := by
  intro s t ht
  rcases step_next_cases ht with ⟨-, rfl⟩ | ⟨acts, hc, rfl⟩ | ⟨h, acts, hc, cut⟩ | ⟨h, acts, r, hc, -, replied, rfl⟩
  · exact ⟨fun before after => by simp [before] at after, fun before after => by simp [before] at after⟩
  · exact ⟨fun _ after => by simp [Engine.erased] at after, fun _ _ => ⟨acts, .inr (.inl hc)⟩⟩
  · obtain ⟨gone, dst, m, -, -, -, rfl⟩ := abandon_next cut
    exact ⟨fun _ after => by simp [Engine.erased] at after, fun _ _ => ⟨acts, .inr (.inr ⟨h, hc⟩)⟩⟩
  · have ready := commandReply_ready replied
    rw [hc]
    refine ⟨fun before after => ⟨acts, ?_⟩, fun before after => ⟨acts, .inl ?_⟩⟩
    · have init : h = 0x00082001#32 := by
        by_contra notInit
        have stays : r.eng.ready = false := by simpa [notInit, before] using ready
        simp [stays] at after
      rw [init]
    · have erase : h = 0x00000003#32 := by
        by_contra notErase
        have stays : r.eng.ready = true := by simpa [notErase, before] using ready
        simp [stays] at after
      rw [erase]

end Sys2Proof.Machine
end

section
/-! # Commands cut short by reset, commands without their payload, and that nothing else stops a step
(spec/70_reset_and_hazards.md R172, R179, R182) -/

namespace Sys2Proof.Machine

/-! ## The result bytes of a payload not taken to its end -/

/-- A header produces result bytes only as an APPLY that is not refused; then they are those of STEP's fold. -/
theorem producedBytes_cases (h : Word) (e : Engine) :
    (∀ p, producedBytes h p e = some []) ∨ ∀ p, producedBytes h p e = (applyBytes p e).map Prod.snd := by
  unfold producedBytes
  cases decode h with
  | illegal why => exact .inl fun _ => rfl
  | instr i =>
    cases i with
    | init klen nlen => exact .inl fun _ => rfl
    | erase => exact .inl fun _ => rfl
    | apply len =>
      cases ready : e.ready with
      | false => exact .inl fun _ => rfl
      | true => exact .inr fun p => by cases applyBytes p e <;> simp

theorem producedBytes_total (h : Word) (p : List Byte) {e : Engine} (inRange : e.cur.toNat ≤ 63) :
    ∃ all, producedBytes h p e = some all := by
  rcases producedBytes_cases h e with nothing | fold
  · exact ⟨[], nothing p⟩
  · obtain ⟨e', dst, applied⟩ := applyBytes_total p inRange
    exact ⟨dst, by rw [fold, applied]; rfl⟩

/-- A payload's first bytes give the first result bytes, no more of them than bytes taken (R172). -/
theorem producedBytes_take {h : Word} {p all dst : List Byte} {e : Engine} {n : Nat}
    (whole : producedBytes h p e = some all) (front : producedBytes h (p.take n) e = some dst) :
    dst <+: all ∧ dst.length ≤ n := by
  rcases producedBytes_cases h e with nothing | fold
  · obtain rfl : [] = dst := by simpa [nothing] using front
    exact ⟨List.nil_prefix, Nat.zero_le n⟩
  · rw [fold] at front whole
    obtain ⟨⟨e1, d1⟩, applied, rfl⟩ := Option.map_eq_some_iff.mp front
    obtain ⟨⟨e2, d2⟩, appliedAll, rfl⟩ := Option.map_eq_some_iff.mp whole
    rw [← List.take_append_drop n p, applyBytes_append, applied] at appliedAll
    refine ⟨?_, ?_⟩
    · cases rest : applyBytes (p.drop n) e1 with
      | none => simp [rest] at appliedAll
      | some q =>
        obtain ⟨-, rfl⟩ : q.1 = e2 ∧ d1 ++ q.2 = d2 := by simpa [rest] using appliedAll
        exact List.prefix_append d1 q.2
    · rw [(applyBytes_keeps applied).1]
      exact List.length_take_le n p

/-! ## A command cut short -/

theorem abandon_total (h : Word) {s : State} (inRange : s.eng.cur.toNat ≤ 63) : ∃ t, abandon h s = .next t := by
  obtain ⟨dst, produced⟩ := producedBytes_total h (s.ports.din.take (cutGoneBytes h s)) inRange
  simp [abandon, produced]

/-- On a legal engine a cut command leaves the reset state. The result bytes sent are the first of those that `n` payload
bytes give, `n` being no fewer than the command can have taken (R172). -/
theorem abandon_legal {h : Word} {s : State} (legal : s.eng.Legal) {n : Nat}
    (bound : min (payloadLen h) s.ports.din.length ≤ n) :
    ∃ t gone all ds, abandon h s = .next t ∧ t.eng = State.reset.eng ∧ t.ports.cmd = s.ports.cmd ∧
      gone ≤ payloadLen h ∧ gone ≤ s.ports.din.length ∧ t.ports.din = s.ports.din.drop gone ∧
      producedBytes h (s.ports.din.take n) s.eng = some all ∧
      ds <+: all ∧ ds.length ≤ gone ∧ t.ports.out = s.ports.out ++ ds.map .dout := by
  obtain ⟨t, ht⟩ := abandon_total h legal.cur_le
  obtain ⟨gone, dst, m, announced, supplied, produced, rfl⟩ := abandon_next ht
  obtain ⟨all, whole⟩ := producedBytes_total h (s.ports.din.take n) legal.cur_le
  have front : producedBytes h ((s.ports.din.take n).take gone) s.eng = some dst := by
    rw [List.take_take, Nat.min_eq_left (by omega), produced]
  obtain ⟨isPrefix, length⟩ := producedBytes_take whole front
  refine ⟨_, gone, all, dst.take m, ht, rfl, rfl, announced, supplied, rfl, whole,
    (List.take_prefix m dst).trans isPrefix, ?_, rfl⟩
  exact (List.length_take_le' m dst).trans length

theorem step_commandThenReset {s : State} {h : Word} {acts : List HostAct}
    (hc : s.ports.cmd = .commandThenReset h :: acts) : step s = abandon h (s.setCmd acts) := by
  simp [step, takeTurn, hc]

/-- Settles O47: the step is `abandon`, and at most `payloadLen` bytes can have been taken. -/
theorem cutCommandDeliversAPrefix : Obligations.CutCommandDeliversAPrefix := by
  intro s h acts legal hc
  obtain ⟨t, gone, all, ds, stepped, eng, cmd, announced, -, din, whole, isPrefix, length, out⟩ :=
    abandon_legal (s := s.setCmd acts) legal (Nat.min_le_left (payloadLen h) _)
  exact ⟨t, gone, all, ds, (step_commandThenReset hc).trans stepped, eng, cmd, announced, din, whole, isPrefix, length, out⟩

/-! ## A command without its payload -/

/-- A starved command that a reset cycle follows is cut short (R179). -/
theorem step_starved_reset {s : State} {h : Word} {rest : List HostAct}
    (hc : s.ports.cmd = .command h :: .resetCycle :: rest) (starved : s.ports.din.length < payloadLen h) :
    step s = abandon h (s.setCmd rest) := by
  simp [step, takeTurn, hc, Nat.not_le.mpr starved]

/-- A command that no reset cycle follows is run, its payload supplied or not. -/
theorem takeTurn_noReset {s : State} {h : Word} {acts : List HostAct} (hc : s.ports.cmd = .command h :: acts)
    (noReset : ∀ rest, acts ≠ .resetCycle :: rest) : takeTurn s = .run h (s.setCmd acts) := by
  cases acts with
  | nil => simp [takeTurn, hc]
  | cons a acts =>
    cases a with
    | resetCycle => exact absurd rfl (noReset acts)
    | command h' => simp [takeTurn, hc]
    | commandThenReset h' => simp [takeTurn, hc]

/-- Settles O48: without a reset cycle next the command is run and `conclude` finds too few bytes; with one it is
`abandon`, and no more bytes can have been taken than were supplied. -/
theorem starvedCommandWaitsForReset : Obligations.StarvedCommandWaitsForReset := by
  intro s h acts hc starved
  refine ⟨fun noReset => ?_, ?_⟩
  · simp only [step, takeTurn_noReset hc noReset, runHeader_eq]
    exact conclude_starved starved
  · rintro rest rfl legal
    obtain ⟨t, gone, all, ds, stepped, eng, cmd, -, supplied, din, whole, isPrefix, length, out⟩ :=
      abandon_legal (h := h) (s := s.setCmd rest) legal (Nat.min_le_right _ _)
    rw [List.take_length] at whole
    exact ⟨t, gone, all, ds, (step_starved_reset hc starved).trans stepped, eng, cmd, supplied, din, whole, isPrefix,
      length, out⟩

/-! ## Totality -/

/-- Settles O56: by the host's action; only a command's payload could be missing, and its reply exists because a legal
cursor is in range. -/
theorem stepIsTotalOnLegalStates : Obligations.StepIsTotalOnLegalStates := by
  intro s legal supplied
  cases hc : s.ports.cmd with
  | nil => exact ⟨s, idleStepChangesNothing s hc⟩
  | cons a acts =>
    cases a with
    | resetCycle => exact ⟨_, step_resetCycle hc⟩
    | commandThenReset h =>
      obtain ⟨t, -, -, -, stepped, -⟩ := cutCommandDeliversAPrefix s h acts legal hc
      exact ⟨t, stepped⟩
    | command h =>
      have hl : payloadLen h ≤ s.ports.din.length := by simpa [State.PayloadSupplied, hc] using supplied
      obtain ⟨r, -, stepped⟩ := stepIsTheCommandFunction s h acts hc hl legal.cur_le
      exact ⟨_, stepped⟩

end Sys2Proof.Machine
end

section
/-! # The Core Transform: the quarter-round on numbers, bijectivity, the order of a round's groups
(spec/40_core_transform.md R83 to R93) -/

namespace Sys2Proof.Machine

/-! ## The quarter-round on numbers -/

/-- Settles O8: each new word stands for the number its line computes, by the laws of ADD32 and ROTL32 on numbers. -/
theorem quarterRoundIsItsFourLines : Obligations.QuarterRoundIsItsFourLines := by
  intro a b c d rot a1 d1 c1 b1 a2 d2 c2 b2
  have sum (x y : Word) : (x.toNat + y.toNat) % 2 ^ 32 = (add32 x y).toNat := (add32_toNat x y).symm
  have rotated (x y : Word) (n : Nat) (h : n ≤ 32) : rot (x.toNat ^^^ y.toNat) n = (rotl32 (xor32 x y) n).toNat := by
    rw [rotl32_toNat _ h, xor32, BitVec.toNat_xor]
  simp only [a1, b1, c1, d1, a2, b2, c2, d2, sum, rotated _ _ 16 (by decide), rotated _ _ 12 (by decide),
    rotated _ _ 8 (by decide), rotated _ _ 7 (by decide), BitVec.ofNat_toNat, BitVec.setWidth_eq]
  rfl

/-! ## The quarter-round backwards -/

/-- Rotations that add up to the width undo each other (R82). -/
theorem rotl32_rotl32_complement (x : Word) {m n : Nat} (hm : 0 < m) (hn : 0 < n) (width : m + n = 32) :
    rotl32 (rotl32 x m) n = x := by
  refine BitVec.eq_of_getLsbD_eq fun j hj => ?_
  have source : ((j + (32 - n)) % 32 + (32 - m)) % 32 = j := by omega
  rw [rotl32_getLsbD _ (by omega) hj, rotl32_getLsbD _ (by omega) (Nat.mod_lt _ (by decide)), source]

theorem xor32_xor32_cancel (x y : Word) : xor32 (xor32 x y) y = x := by
  rw [xor32, xor32, BitVec.xor_assoc, BitVec.xor_self, BitVec.xor_zero]

/-- One line of R83 on the roles a, b, c, d; the result gives each word the role it has in the next line. -/
def qrLine (n : Nat) (w : Word × Word × Word × Word) : Word × Word × Word × Word :=
  let (a, b, c, d) := w
  (c, rotl32 (xor32 d (add32 a b)) n, add32 a b, b)

/-- A line of R83 undone: the rotation, the exclusive-or, the sum. -/
def qrLineBack (n : Nat) (w : Word × Word × Word × Word) : Word × Word × Word × Word :=
  let (c, d, a, b) := w
  (a - b, b, c, xor32 (rotl32 d (32 - n)) a)

/-- The quarter-round is its four lines (R83). -/
theorem qr_eq_qrLines (a b c d : Word) :
    qr a b c d = qrLine 7 (qrLine 8 (qrLine 12 (qrLine 16 (a, b, c, d)))) := rfl

theorem qrLine_bijective {n : Nat} (hpos : 0 < n) (hlt : n < 32) : Function.Bijective (qrLine n) := by
  refine Function.bijective_iff_has_inverse.mpr ⟨qrLineBack n, fun ⟨a, b, c, d⟩ => ?_, fun ⟨c, d, a, b⟩ => ?_⟩
  · have rotation := rotl32_rotl32_complement (xor32 d (add32 a b)) hpos (by omega) (Nat.add_sub_of_le hlt.le)
    have sum : add32 a b - b = a := BitVec.add_sub_cancel a b
    simp only [qrLine, qrLineBack, rotation, xor32_xor32_cancel, sum]
  · have rotation := rotl32_rotl32_complement d (by omega) hpos (Nat.sub_add_cancel hlt.le)
    have sum : add32 (a - b) b = a := BitVec.sub_add_cancel a b
    simp only [qrLine, qrLineBack, rotation, xor32_xor32_cancel, sum]

/-- The quarter-round as a function of one quadruple (R83). -/
def qrTuple (w : Word × Word × Word × Word) : Word × Word × Word × Word := qr w.1 w.2.1 w.2.2.1 w.2.2.2

theorem qrTuple_bijective : Function.Bijective qrTuple := by
  have line16 := qrLine_bijective (n := 16) (by decide) (by decide)
  have line12 := qrLine_bijective (n := 12) (by decide) (by decide)
  have line8 := qrLine_bijective (n := 8) (by decide) (by decide)
  have line7 := qrLine_bijective (n := 7) (by decide) (by decide)
  have lines : qrTuple = qrLine 7 ∘ qrLine 8 ∘ qrLine 12 ∘ qrLine 16 := funext fun w => qr_eq_qrLines ..
  rw [lines]
  exact line7.comp (line8.comp (line12.comp line16))

theorem qr_zero : qr 0#32 0#32 0#32 0#32 = (0#32, 0#32, 0#32, 0#32) := by decide

/-- Settles O9: QR is four invertible lines; zero goes to zero, and by injectivity nothing else does. -/
theorem quarterRoundIsBijective : Obligations.QuarterRoundIsBijective := by
  refine ⟨qrTuple_bijective, fun a b c d => ⟨fun zero => ?_, ?_⟩⟩
  · have same : qrTuple (a, b, c, d) = qrTuple (0#32, 0#32, 0#32, 0#32) := zero.trans qr_zero.symm
    simpa using qrTuple_bijective.injective same
  · rintro ⟨rfl, rfl, rfl, rfl⟩
    exact qr_zero

/-! ## A group's four words: reading and replacing them -/

theorem words_ext {x y : Words} (same : ∀ m : Fin 16, x[m] = y[m]) : x = y :=
  Vector.ext fun i hi => same ⟨i, hi⟩

/-- The four indices of a group. -/
def WordGroup.indices (g : WordGroup) : List (Fin 16) := [g.a, g.b, g.c, g.d]

theorem mem_indices {g : WordGroup} {m : Fin 16} : m ∈ g.indices ↔ m = g.a ∨ m = g.b ∨ m = g.c ∨ m = g.d := by
  simp [WordGroup.indices]

/-- The four words of `x` a group names. -/
def groupWords (x : Words) (g : WordGroup) : Word × Word × Word × Word := (x[g.a], x[g.b], x[g.c], x[g.d])

/-- QRAT reads a group, applies QR and replaces the group (R84). -/
theorem qrAt_eq (x : Words) (g : WordGroup) : qrAt x g = putGroup x g (qrTuple (groupWords x g)) := rfl

section
variable (y y' : Words) {g : WordGroup} (q q' : Word × Word × Word × Word)

theorem putGroup_outside {m : Fin 16} (outside : m ∉ g.indices) : (putGroup y g q)[m] = y[m] := by
  obtain ⟨ha, hb, hc, hd⟩ : m ≠ g.a ∧ m ≠ g.b ∧ m ≠ g.c ∧ m ≠ g.d := by simpa [mem_indices] using outside
  simp [putGroup_getElem, ha.symm, hb.symm, hc.symm, hd.symm]

theorem putGroup_inside {m : Fin 16} (inside : m ∈ g.indices) : (putGroup y g q)[m] = (putGroup y' g q)[m] := by
  rcases mem_indices.mp inside with rfl | rfl | rfl | rfl <;> simp [putGroup_getElem]

theorem groupWords_putGroup (distinct : g.indices.Nodup) : groupWords (putGroup y g q) g = q := by
  obtain ⟨⟨hab, hac, had⟩, ⟨hbc, hbd⟩, hcd⟩ :
      (g.a ≠ g.b ∧ g.a ≠ g.c ∧ g.a ≠ g.d) ∧ (g.b ≠ g.c ∧ g.b ≠ g.d) ∧ g.c ≠ g.d := by
    simpa [WordGroup.indices, and_assoc] using distinct
  simp [groupWords, putGroup_getElem, hab.symm, hac.symm, had.symm, hbc.symm, hbd.symm, hcd.symm]

theorem putGroup_groupWords : putGroup y g (groupWords y g) = y := by
  refine words_ext fun m => ?_
  by_cases inside : m ∈ g.indices
  · simp only [groupWords, Fin.getElem_fin, putGroup_getElem]
    split_ifs <;> simp_all
  · exact putGroup_outside y _ inside

theorem putGroup_putGroup : putGroup (putGroup y g q) g q' = putGroup y g q' := by
  refine words_ext fun m => ?_
  by_cases inside : m ∈ g.indices
  · exact putGroup_inside _ _ q' inside
  · rw [putGroup_outside _ _ inside, putGroup_outside _ _ inside, putGroup_outside _ _ inside]

end

/-! ## QRAT is invertible -/

theorem qrAt_bijective {g : WordGroup} (distinct : g.indices.Nodup) : Function.Bijective fun x => qrAt x g := by
  obtain ⟨back, left, right⟩ := Function.bijective_iff_has_inverse.mp qrTuple_bijective
  refine Function.bijective_iff_has_inverse.mpr ⟨fun y => putGroup y g (back (groupWords y g)), fun x => ?_, fun y => ?_⟩
  · simp only [qrAt_eq, groupWords_putGroup _ _ distinct, left _, putGroup_putGroup, putGroup_groupWords]
  · simp only [qrAt_eq, groupWords_putGroup _ _ distinct, right _, putGroup_putGroup, putGroup_groupWords]

theorem foldl_qrAt_bijective (gs : List WordGroup) (distinct : ∀ g ∈ gs, g.indices.Nodup) :
    Function.Bijective fun x => gs.foldl qrAt x := by
  induction gs with
  | nil => exact Function.bijective_id
  | cons g gs ih =>
    obtain ⟨hg, hgs⟩ := List.forall_mem_cons.mp distinct
    exact (ih hgs).comp (qrAt_bijective hg)

theorem doubleRound_bijective : Function.Bijective doubleRound := by
  rw [funext doubleRound_eq_foldl]
  exact foldl_qrAt_bijective _ (by decide)

theorem mixRounds_bijective (n : Nat) : Function.Bijective (mixRounds n) := by
  induction n with
  | zero => exact Function.bijective_id
  | succ n ih => exact ih.comp doubleRound_bijective

/-! ## The all-zero state -/

theorem qrAt_zero (g : WordGroup) : qrAt (Vector.replicate 16 0#32) g = Vector.replicate 16 0#32 := by
  have words : groupWords (Vector.replicate 16 0#32) g = (0#32, 0#32, 0#32, 0#32) := by simp [groupWords]
  have fixed : qrTuple (0#32, 0#32, 0#32, 0#32) = (0#32, 0#32, 0#32, 0#32) := qr_zero
  rw [qrAt_eq, words, fixed, ← words, putGroup_groupWords]

theorem mix20_zero : mix20 (Vector.replicate 16 0#32) = Vector.replicate 16 0#32 :=
  (mixRounds_eq_foldl 10 _).trans (List.foldl_fixed' qrAt_zero _)

/-- Settles O14: QRAT at distinct indices is invertible, so the rounds are; QRAT fixes the zero state. -/
theorem mixIsBijective : Obligations.MixIsBijective := by
  refine ⟨mixRounds_bijective 10, mix20_zero, words_ext fun m => ?_⟩
  rw [Fin.getElem_fin, core_getElem, mix20_zero]
  simp

/-- Settles O15: the feed-forward is word by word. -/
theorem coreAddsItsInput : Obligations.CoreAddsItsInput := by
  intro x i
  rw [Fin.getElem_fin, core_getElem, add32_toNat]
  rfl

/-! ## The order of a round's groups -/

/-- Groups that share no index. -/
def WordGroup.Apart (g g' : WordGroup) : Prop := ∀ m ∈ g.indices, m ∉ g'.indices

theorem WordGroup.Apart.symm {g g' : WordGroup} (apart : g.Apart g') : g'.Apart g :=
  fun m inside' inside => apart m inside inside'

section
variable {g g' : WordGroup}

theorem groupWords_putGroup_apart (apart : g.Apart g') (x : Words) (q : Word × Word × Word × Word) :
    groupWords (putGroup x g q) g' = groupWords x g' := by
  have kept (m : Fin 16) (inside' : m ∈ g'.indices) : (putGroup x g q)[m] = x[m] :=
    putGroup_outside x q fun inside => apart m inside inside'
  simp only [groupWords, kept g'.a (by simp [mem_indices]), kept g'.b (by simp [mem_indices]),
    kept g'.c (by simp [mem_indices]), kept g'.d (by simp [mem_indices])]

theorem putGroup_comm (apart : g.Apart g') (x : Words) (q q' : Word × Word × Word × Word) :
    putGroup (putGroup x g q) g' q' = putGroup (putGroup x g' q') g q := by
  refine words_ext fun m => ?_
  by_cases inside : m ∈ g.indices
  · rw [putGroup_outside _ _ (apart m inside)]
    exact putGroup_inside _ _ q inside
  · rw [putGroup_outside _ q inside]
    by_cases inside' : m ∈ g'.indices
    · exact putGroup_inside _ _ q' inside'
    · rw [putGroup_outside _ _ inside', putGroup_outside _ _ inside', putGroup_outside _ _ inside]

/-- Quarter-rounds on groups apart read and write different words, so their order does not matter (R85, R86). -/
theorem qrAt_comm (apart : g.Apart g') (x : Words) : qrAt (qrAt x g) g' = qrAt (qrAt x g') g := by
  simp only [qrAt_eq, groupWords_putGroup_apart apart, groupWords_putGroup_apart apart.symm, putGroup_comm apart]

end

/-- Groups pairwise apart may be taken in any order. -/
theorem foldl_qrAt_perm {gs gs' : List WordGroup} (perm : gs.Perm gs') (apart : gs'.Pairwise WordGroup.Apart) (x : Words) :
    gs.foldl qrAt x = gs'.foldl qrAt x := by
  have symmetric : Std.Symm fun g g' => ∀ z, qrAt (qrAt z g) g' = qrAt (qrAt z g') g := ⟨fun _ _ comm z => (comm z).symm⟩
  have commute : gs'.Pairwise fun g g' => ∀ z, qrAt (qrAt z g) g' = qrAt (qrAt z g') g := apart.imp qrAt_comm
  exact (perm.symm.foldl_eq' (fun g hg g' hg' => commute.forall_of_forall (fun _ _ _ => rfl) hg hg') x).symm

/-- Quarter-rounds evaluated together, from a state `y` in which the groups still to come are as in `x`. -/
theorem foldl_putGroup_eq_foldl_qrAt (x : Words) (gs : List WordGroup) (apart : gs.Pairwise WordGroup.Apart) (y : Words)
    (asBefore : ∀ g ∈ gs, groupWords y g = groupWords x g) :
    gs.foldl (fun y g => putGroup y g (qrOf x g)) y = gs.foldl qrAt y := by
  induction gs generalizing y with
  | nil => rfl
  | cons g gs ih =>
    obtain ⟨hg, hgs⟩ := List.pairwise_cons.mp apart
    obtain ⟨first, later⟩ := List.forall_mem_cons.mp asBefore
    have step : putGroup y g (qrOf x g) = qrAt y g := by
      rw [qrAt_eq, first]; rfl
    rw [List.foldl_cons, List.foldl_cons, step]
    refine ih hgs _ fun g' hg' => ?_
    rw [qrAt_eq, groupWords_putGroup_apart (hg g' hg'), later g' hg']

/-- Quarter-rounds on groups apart may be evaluated at the same time (R93). -/
theorem qrTogether_eq_foldl {gs : List WordGroup} (apart : gs.Pairwise WordGroup.Apart) (x : Words) :
    qrTogether x gs = gs.foldl qrAt x :=
  foldl_putGroup_eq_foldl_qrAt x gs apart x fun _ _ => rfl

/-- Any parallelism gives the round taken group by group (R93). -/
theorem roundByLanes_eq_foldl {p : Nat} (hp : 1 ≤ p) (fuel : Nat) {gs : List WordGroup} (enough : gs.length ≤ fuel)
    (apart : gs.Pairwise WordGroup.Apart) (x : Words) : roundByLanes p fuel gs x = gs.foldl qrAt x := by
  induction fuel generalizing gs x with
  | zero =>
    obtain rfl : gs = [] := List.length_eq_zero_iff.mp (by omega)
    rfl
  | succ fuel ih =>
    have fewer : (gs.drop p).length ≤ fuel := by rw [List.length_drop]; omega
    rw [roundByLanes, ih fewer (apart.sublist (List.drop_sublist p gs)),
      qrTogether_eq_foldl (apart.sublist (List.take_sublist p gs)), ← List.foldl_append, List.take_append_drop]

theorem columnGroups_apart : columnGroups.Pairwise WordGroup.Apart := by
  unfold WordGroup.Apart; decide

theorem diagonalGroups_apart : diagonalGroups.Pairwise WordGroup.Apart := by
  unfold WordGroup.Apart; decide

/-- Settles O11: each round's groups are pairwise apart. -/
theorem roundOrderAndLanesDoNotMatter : Obligations.RoundOrderAndLanesDoNotMatter :=
  fun x => ⟨fun _ perm => foldl_qrAt_perm perm columnGroups_apart x,
    fun _ perm => foldl_qrAt_perm perm diagonalGroups_apart x,
    fun _ hp _ => ⟨roundByLanes_eq_foldl hp 4 (by decide) columnGroups_apart x,
      roundByLanes_eq_foldl hp 4 (by decide) diagonalGroups_apart x⟩⟩

/-! ## The groups of the two rounds -/

/-- Words all different from each other, on which no diagonal quarter-round commutes with a column one. -/
def countingWords : Words := Vector.ofFn fun i => BitVec.ofNat 32 i.val

theorem qrAt_countingWords_ne : ∀ g ∈ columnGroups, ∀ g' ∈ diagonalGroups,
    qrAt (qrAt countingWords g) g' ≠ qrAt (qrAt countingWords g') g := by decide +kernel

/-- Settles O12: the groups are listed in the model; `countingWords` tells the two orders apart. -/
theorem roundGroupsCoverTheMatrix : Obligations.RoundGroupsCoverTheMatrix :=
  ⟨by decide, by decide, by decide, fun g hg g' hg' => ⟨countingWords, qrAt_countingWords_ne g hg g' hg'⟩⟩

end Sys2Proof.Machine
end

section
/-! # The block generator: the wires of the inner blocks, BLOCKGEN, the counter, the keystream
(spec/30_encoding.md R50, 41_block_generator.md R105 to R112) -/

namespace Sys2Proof.Machine

/-! ## Fields on 512 wires -/

/-- A bit of several wire patterns laid over each other. -/
theorem getLsbD_foldl_or {ι : Type} {w : Nat} (l : List ι) (pattern : ι → BitVec w) (wires : BitVec w) (k : Nat) :
    (l.foldl (fun wires i => wires ||| pattern i) wires).getLsbD k =
      (wires.getLsbD k || l.any fun i => (pattern i).getLsbD k) := by
  induction l generalizing wires with
  | nil => simp
  | cons i l ih => rw [List.foldl_cons, ih, BitVec.getLsbD_or, List.any_cons, Bool.or_assoc]

/-- Bit `k` of field `j`'s place comes from field `j` alone. -/
theorem getLsbD_field (w : Nat) {n k : Nat} (i j : Fin n) (field : BitVec w) (fits : w * n ≤ 512) (hk : k < w) :
    (BitVec.setWidth 512 field <<< (w * i.val)).getLsbD (w * j.val + k) = (decide (i = j) && field.getLsbD k) := by
  have place (a b : Nat) (h : a < b) : w * a + w ≤ w * b := Nat.mul_succ w a ▸ Nat.mul_le_mul_left w h
  have onWires : w * j.val + k < 512 := by
    have := place j n j.isLt
    omega
  rw [BitVec.getLsbD_shiftLeft, BitVec.getLsbD_setWidth]
  rcases Nat.lt_trichotomy i.val j.val with below | same | above
  · have beyond : w ≤ w * j.val + k - w * i.val := by
      have := place i j below
      omega
    simp [Fin.ne_of_lt below, BitVec.getLsbD_of_ge field _ beyond]
  · obtain rfl := Fin.ext same
    simp [onWires]
    omega
  · have before : w * j.val + k < w * i.val := by
      have := place j i above
      omega
    simp [Fin.ne_of_gt above, before]

/-- Fields of one width, field `i` laid from bit `w * i` on, do not overlap: each is read back where it was laid
(R50). -/
theorem extractLsb'_fields {n w : Nat} (field : Fin n → BitVec w) (fits : w * n ≤ 512) (j : Fin n) :
    ((List.finRange n).foldl (fun wires i => wires ||| (BitVec.setWidth 512 (field i) <<< (w * i.val))) 0#512).extractLsb'
      (w * j.val) w = field j := by
  refine BitVec.eq_of_getLsbD_eq fun k hk => ?_
  rw [BitVec.getLsbD_extractLsb', getLsbD_foldl_or, BitVec.getLsbD_zero]
  simp only [getLsbD_field w _ j _ fits hk, hk]
  rw [Bool.eq_iff_iff]
  simp

theorem extractLsb'_packWords (x : Words) (i : Fin 16) : (packWords x).extractLsb' (32 * i.val) 32 = x[i] :=
  extractLsb'_fields (fun i : Fin 16 => x[i]) (by decide) i

theorem extractLsb'_packBlock (v : Block) (j : Fin 64) : (packBlock v).extractLsb' (8 * j.val) 8 = v[j] :=
  extractLsb'_fields (fun j : Fin 64 => v[j]) (by decide) j

theorem unpackWords_packWords (x : Words) : unpackWords (packWords x) = x :=
  words_ext fun i => by simpa [unpackWords] using extractLsb'_packWords x i

/-- Settles O16: fields do not overlap, so what is packed is read back. -/
theorem innerBlockWireLayout : Obligations.InnerBlockWireLayout := by
  refine fun x => ⟨unpackWords_packWords x, fun i => ?_, fun j => ?_⟩
  · rw [coreWires, unpackWords_packWords, extractLsb'_packWords]
  · rw [generatorWires, unpackWords_packWords, extractLsb'_packBlock]

/-! ## BLOCKGEN -/

/-- Settles O20: the one write of the buffer, read back; the other fields are not written. -/
theorem blockGenWritesOnlyTheBuffer : Obligations.BlockGenWritesOnlyTheBuffer := by
  refine fun e => ⟨fun a => ?_, blockGen_s e, blockGen_cur e, blockGen_ready e, ?_⟩
  · rw [blockGen_buf, readByte_ofBlock _ _ a.isLt, blockGenBytes]
    rfl
  · rw [blockGen_buf, wf_ofBlock]

/-! ## The counter -/

theorem counter_lt (e : Engine) : e.counter < 2 ^ 64 := by
  unfold Engine.counter
  omega

/-- CTRINC on the counter as one number (R110). -/
theorem counter_ctrInc (e : Engine) : (ctrInc e).counter = (e.counter + 1) % 2 ^ 64 := by
  have low := add32_toNat e.s[12] 1#32
  have high := add32_toNat e.s[13] 1#32
  have one : (1#32).toNat = 1 := rfl
  rw [Engine.counter, Engine.counter, ctrInc_low, ctrInc_high]
  by_cases wraps : add32 e.s[12] 1#32 = 0#32
  · have zero : (add32 e.s[12] 1#32).toNat = 0 := congrArg BitVec.toNat wraps
    rw [if_pos wraps]
    omega
  · have positive : (add32 e.s[12] 1#32).toNat ≠ 0 := fun zero => wraps (BitVec.eq_of_toNat_eq zero)
    rw [if_neg wraps]
    omega

/-- The counter is read from the sixteen words alone (R12). -/
theorem counter_congr {e e' : Engine} (words : e.s = e'.s) : e.counter = e'.counter := by
  rw [Engine.counter, Engine.counter, words]

theorem counter_regen (e : Engine) : (regen e).counter = (e.counter + 1) % 2 ^ 64 :=
  (counter_congr (regen_s e)).trans (counter_ctrInc e)

/-- CTRINC writes no word but 12 and 13 (R110). -/
theorem ctrInc_getElem_other (e : Engine) (i : Fin 16) (h12 : i ≠ 12) (h13 : i ≠ 13) : (ctrInc e).s[i] = e.s[i] :=
  ctrInc_other e i i.isLt (fun h => h12 (Fin.ext h)) (fun h => h13 (Fin.ext h))

/-- Settles O22: the two words as the model writes them, and `counter_ctrInc`. -/
theorem counterIncrementsAsOneNumber : Obligations.CounterIncrementsAsOneNumber := by
  refine fun e => ⟨ctrInc_low e, ?_, counter_ctrInc e, ctrInc_getElem_other e, ctrInc_buf e, ctrInc_cur e, ctrInc_ready e⟩
  rw [ctrInc_high, ctrInc_low]

/-- Settles O23: REGEN is CTRINC on the words, and `readByte_regen` on the buffer. -/
theorem regenAdvancesThenGenerates : Obligations.RegenAdvancesThenGenerates := by
  refine fun e => ⟨counter_regen e, fun i h12 h13 => ?_, readByte_regen e, regen_cur e, regen_ready e⟩
  rw [regen_s, ctrInc_getElem_other e i h12 h13]

/-! ## The keystream -/

/-- A keystream byte is its block's, whatever number of periods lies before it (R106). -/
theorem keystreamByte_congr {p q : Nat} (block : p / 64 % 2 ^ 64 = q / 64 % 2 ^ 64) (byte : p % 64 = q % 64) (key : Key)
    (nonce : Nonce) : keystreamByte key nonce p = keystreamByte key nonce q := by
  simp only [keystreamByte, block, byte]

/-- Settles O21: `layout` has the counter's halves in words 12 and 13; 2^70 bytes are 2^64 whole blocks. -/
theorem keystreamBlockByCounter : Obligations.KeystreamBlockByCounter := by
  refine fun key nonce => ⟨fun n _ => ?_, fun p => ⟨rfl, keystreamByte_congr ?_ ?_ key nonce⟩⟩
  · rw [loadState, layout_set_counter, keystreamBlock]
  · omega
  · omega

end Sys2Proof.Machine
end

section
/-! # APPLY: its frame, the position it reaches, chunks, and the keystream law (spec/42_engine_commands.md R124 to R129) -/

namespace Sys2Proof.Machine

/-! ## What APPLY leaves -/

/-- If APPLY answers a next state, it was refused, or the engine advanced once for each source byte; nothing but the
engine, `din` and the outputs is another (R124, R125). -/
theorem exec_apply_next {s t : State} {len : Nat} (ht : exec (.apply len) s = .next t) :
    ∃ e outs, t = ((s.setDin (s.ports.din.drop len)).setEng e).send outs ∧
      ((s.eng.ready = false ∧ e = s.eng) ∨
        (s.eng.ready = true ∧ e = Engine.advance^[len] s.eng ∧
          ∃ dst, applyBytes (s.ports.din.take len) s.eng = some (e, dst))) := by
  obtain ⟨supplied, r, replied, rfl⟩ := conclude_next ht
  refine ⟨r.eng, r.outputs, rfl, ?_⟩
  rcases applyReply_cases replied with ⟨notReady, rfl⟩ | ⟨ready, e', dst, applied, rfl⟩
  · exact .inl ⟨notReady, rfl⟩
  · refine .inr ⟨ready, ?_, dst, applied⟩
    rw [(applyBytes_chain applied).1, List.length_take_of_le supplied]

/-- Settles O31: whether APPLY is refused and the engine it leaves are functions of the engine and the length. -/
theorem sourceBytesDoNotInfluenceTheEngine : Obligations.SourceBytesDoNotInfluenceTheEngine := by
  intro s₁ s₂ t₁ t₂ len same h₁ h₂
  obtain ⟨e₁, outs₁, rfl, left₁⟩ := exec_apply_next h₁
  obtain ⟨e₂, outs₂, rfl, left₂⟩ := exec_apply_next h₂
  rw [same] at left₁
  rcases left₁ with ⟨notReady, rfl⟩ | ⟨ready, rfl, -⟩ <;> rcases left₂ with ⟨notReady', rfl⟩ | ⟨ready', rfl, -⟩
  · rfl
  · simp [notReady] at ready'
  · simp [ready] at notReady'
  · rfl

/-! ## The position -/

theorem advance_position {e : Engine} (inRange : e.cur.toNat ≤ 63) :
    e.advance.counter = (e.counter + (e.cur.toNat + 1) / 64) % 2 ^ 64 ∧ e.advance.cur.toNat = (e.cur.toNat + 1) % 64 := by
  by_cases last : e.cur.toNat = 63
  · rw [advance_last last, counter_regen, regen_cur, last]
    exact ⟨rfl, rfl⟩
  · rw [advance_below last]
    refine ⟨?_, ?_⟩
    · have same : ({ e with cur := e.cur + 1#7 } : Engine).counter = e.counter := rfl
      have := counter_lt e
      rw [same]
      omega
    · show (e.cur + 1#7).toNat = _
      bv_omega

/-- Counter and cursor after `n` source bytes (R14, R127). -/
theorem advance_iterate_position (n : Nat) {e : Engine} (inRange : e.cur.toNat ≤ 63) :
    (Engine.advance^[n] e).counter = (e.counter + (e.cur.toNat + n) / 64) % 2 ^ 64 ∧
      (Engine.advance^[n] e).cur.toNat = (e.cur.toNat + n) % 64 := by
  induction n with
  | zero =>
    have := counter_lt e
    rw [Function.iterate_zero_apply]
    omega
  | succ n ih =>
    obtain ⟨counter, cur⟩ := ih
    obtain ⟨counter', cur'⟩ := advance_position (e := Engine.advance^[n] e) (by omega)
    rw [Function.iterate_succ_apply', counter', cur', counter, cur]
    omega

/-- Below a block boundary only the cursor moves (R126). -/
theorem advance_iterate_below (n : Nat) {e : Engine} (below : e.cur.toNat + n < 64) :
    (Engine.advance^[n] e).s = e.s ∧ (Engine.advance^[n] e).buf = e.buf := by
  induction n with
  | zero => exact ⟨rfl, rfl⟩
  | succ n ih =>
    obtain ⟨-, cur⟩ := advance_iterate_position n (e := e) (by omega)
    rw [Function.iterate_succ_apply', advance_below (by omega)]
    exact ih (by omega)

/-- Settles O29: a refused APPLY changes nothing of this; otherwise STEP's frame, byte after byte. -/
theorem applyFrame : Obligations.ApplyFrame := by
  intro s t len ht
  obtain ⟨e, outs, rfl, left⟩ := exec_apply_next ht
  rcases left with ⟨-, rfl⟩ | ⟨-, advanced, dst, applied⟩
  · exact ⟨fun _ _ _ => rfl, rfl, rfl, rfl, ⟨outs, rfl⟩, fun _ => ⟨rfl, fun _ => rfl⟩⟩
  · refine ⟨applyBytes_s_other applied, (applyBytes_keeps applied).2.1, rfl, rfl, ⟨outs, rfl⟩, fun below => ?_⟩
    obtain ⟨words, buf⟩ := advance_iterate_below len below
    simp only [send_eng, setEng_eng, advanced]
    exact ⟨words, fun a => by rw [buf]⟩

/-! ## The buffer -/

/-- The buffer holds the block of the present words (R13, R18). -/
def Engine.BufferCurrent (e : Engine) : Prop := e.buf = Memory.ofBlock (blockGenBytes e.s)

theorem Engine.BufferCurrent.readByte {e : Engine} (current : e.BufferCurrent) (a : Fin 64) :
    Memory.readByte e.buf a.val = some (blockGenBytes e.s)[a] := by
  rw [current, readByte_ofBlock _ _ a.isLt]
  rfl

theorem regen_bufferCurrent (e : Engine) : (regen e).BufferCurrent := by
  rw [Engine.BufferCurrent, regen_buf, regen_s]

theorem advance_bufferCurrent {e : Engine} (current : e.BufferCurrent) : e.advance.BufferCurrent := by
  by_cases last : e.cur.toNat = 63
  · rw [advance_last last]
    exact regen_bufferCurrent e
  · rw [advance_below last]
    exact current

/-- From the first block boundary on the buffer is current, whatever it held before (R126). -/
theorem advance_iterate_bufferCurrent (n : Nat) {e : Engine} (inRange : e.cur.toNat ≤ 63)
    (crossed : 64 ≤ e.cur.toNat + n) : (Engine.advance^[n] e).BufferCurrent := by
  induction n with
  | zero => omega
  | succ n ih =>
    rw [Function.iterate_succ_apply']
    by_cases before : 64 ≤ e.cur.toNat + n
    · exact advance_bufferCurrent (ih before)
    · obtain ⟨-, cur⟩ := advance_iterate_position n inRange
      rw [advance_last (by omega)]
      exact regen_bufferCurrent _

/-- Settles O30: the position of the engine advanced `len` times, as one number. -/
theorem applyAdvancesThePosition : Obligations.ApplyAdvancesThePosition := by
  rintro s t len ⟨ready, inRange⟩ ht
  obtain ⟨e, outs, rfl, ⟨notReady, -⟩ | ⟨-, rfl, -⟩⟩ := exec_apply_next ht
  · simp [ready] at notReady
  simp only [send_eng, setEng_eng, Engine.position]
  obtain ⟨counter, cur⟩ := advance_iterate_position len inRange
  refine ⟨?_, counter, cur, ?_, fun crossed => (advance_iterate_bufferCurrent len inRange crossed).readByte⟩
  · rintro rfl
    rfl
  · rw [counter, cur]
    omega

/-! ## Several APPLY commands in a row -/

@[simp] theorem doutOf_nil : doutOf [] = [] := rfl
@[simp] theorem doutOf_cons_dout (b : Byte) (outs : List PortOut) : doutOf (.dout b :: outs) = b :: doutOf outs := rfl
@[simp] theorem doutOf_cons_rsp (w : Word) (outs : List PortOut) : doutOf (.rsp w :: outs) = doutOf outs := rfl

@[simp] theorem rspOf_nil : rspOf [] = [] := rfl
@[simp] theorem rspOf_cons_dout (b : Byte) (outs : List PortOut) : rspOf (.dout b :: outs) = rspOf outs := rfl
@[simp] theorem rspOf_cons_rsp (w : Word) (outs : List PortOut) : rspOf (.rsp w :: outs) = w :: rspOf outs := rfl

@[simp] theorem doutOf_append (o o' : List PortOut) : doutOf (o ++ o') = doutOf o ++ doutOf o' := by
  induction o with
  | nil => rfl
  | cons a o ih => cases a <;> simp [ih]

@[simp] theorem rspOf_append (o o' : List PortOut) : rspOf (o ++ o') = rspOf o ++ rspOf o' := by
  induction o with
  | nil => rfl
  | cons a o ih => cases a <;> simp [ih]

@[simp] theorem doutOf_map_dout (bytes : List Byte) : doutOf (bytes.map .dout) = bytes := by
  induction bytes with
  | nil => rfl
  | cons b bytes ih => rw [List.map_cons, doutOf_cons_dout, ih]

@[simp] theorem rspOf_map_dout (bytes : List Byte) : rspOf (bytes.map .dout) = [] := by
  induction bytes with
  | nil => rfl
  | cons b bytes ih => rw [List.map_cons, rspOf_cons_dout, ih]

/-- A fold that runs to its end runs to the end of its first bytes. -/
theorem applyBytes_append_some {x y dst : List Byte} {e e' : Engine} (applied : applyBytes (x ++ y) e = some (e', dst)) :
    ∃ e₁ dx dy, applyBytes x e = some (e₁, dx) ∧ applyBytes y e₁ = some (e', dy) ∧ dst = dx ++ dy := by
  rw [applyBytes_append] at applied
  cases front : applyBytes x e with
  | none => simp [front] at applied
  | some q =>
    cases rest : applyBytes y q.1 with
    | none => simp [front, rest] at applied
    | some q' =>
      obtain ⟨rfl, rfl⟩ : q'.1 = e' ∧ q.2 ++ q'.2 = dst := by simpa [front, rest] using applied
      exact ⟨q.1, q.2, q'.2, rfl, rest, rfl⟩

/-- APPLY commands in a row on a ready engine are one fold of STEP, with one response for each command (R128). -/
theorem applyRun_ready {lens : List Nat} {s : State} {e' : Engine} {dst : List Byte} (ready : s.eng.ready = true)
    (supplied : lens.sum ≤ s.ports.din.length)
    (applied : applyBytes (s.ports.din.take lens.sum) s.eng = some (e', dst)) :
    ∃ outs, applyRun lens s = .next (((s.setDin (s.ports.din.drop lens.sum)).setEng e').send outs) ∧
      doutOf outs = dst ∧ (rspOf outs).length = lens.length := by
  induction lens generalizing s dst with
  | nil =>
    obtain ⟨rfl, rfl⟩ : s.eng = e' ∧ [] = dst := by simpa [applyBytes] using applied
    refine ⟨[], ?_, rfl, rfl⟩
    simp [applyRun, State.setDin, State.setEng, State.send]
  | cons n lens ih =>
    rw [List.sum_cons] at supplied applied ⊢
    rw [List.take_add] at applied
    obtain ⟨e₁, dx, dy, first, rest, rfl⟩ := applyBytes_append_some applied
    have one := exec_apply_ready ready (by omega) first
    have ready₁ : e₁.ready = true := (applyBytes_keeps first).2.1.trans ready
    obtain ⟨outs, run, dout, rsp⟩ := ih
      (s := ((s.setDin (s.ports.din.drop n)).setEng e₁).send (dx.map .dout ++ [.rsp (responseWord .ok e₁)]))
      ready₁ (by simp; omega) rest
    refine ⟨dx.map .dout ++ [.rsp (responseWord .ok e₁)] ++ outs, ?_, ?_, ?_⟩
    · simp only [applyRun, one, run, send_din, setEng_ports, setDin_din, List.drop_drop]
      simp [State.setDin, State.setEng, State.send]
    · simp [dout]
    · simp [rsp]

/-- Settles O33: both are the same fold of STEP. -/
theorem chunkInvariance : Obligations.ChunkInvariance := by
  rintro s lens ⟨ready, inRange⟩ supplied
  obtain ⟨e', dst, applied⟩ := applyBytes_total (s.ports.din.take lens.sum) inRange
  obtain ⟨outs, run, dout, rsp⟩ := applyRun_ready ready supplied applied
  refine ⟨_, _, run, exec_apply_ready ready supplied applied, rfl, ?_, rfl, ?_⟩
  · simp [dout]
  · simp [rsp]

/-! ## The keystream law -/

/-- The engine holds the layout of a key and nonce at some counter, and that counter's block (R104, R106). -/
def Engine.LoadedWith (key : Key) (nonce : Nonce) (e : Engine) : Prop :=
  e.s = layout key nonce e.s[12] e.s[13] ∧ e.BufferCurrent

section
variable {key : Key} {nonce : Nonce}

theorem construct_loadedWith (e : Engine) : (construct key nonce e).LoadedWith key nonce := by
  rw [Engine.LoadedWith, Engine.BufferCurrent, construct_buf, construct_s]
  exact ⟨rfl, rfl⟩

theorem advance_loadedWith {e : Engine} (loaded : e.LoadedWith key nonce) : e.advance.LoadedWith key nonce := by
  obtain ⟨words, current⟩ := loaded
  refine ⟨?_, advance_bufferCurrent current⟩
  by_cases last : e.cur.toNat = 63
  · rw [advance_last last, regen_s, ctrInc_s_of_layout words, layout_low, layout_high]
  · rw [advance_below last]
    exact words

/-- The buffer of a loaded engine is the keystream block its counter numbers (R106). -/
theorem keystreamBlock_counter {e : Engine} (loaded : e.LoadedWith key nonce) :
    keystreamBlock key nonce e.counter = blockGenBytes e.s := by
  have low : BitVec.ofNat 32 (e.counter % 2 ^ 32) = e.s[12] := by
    apply BitVec.eq_of_toNat_eq
    rw [BitVec.toNat_ofNat, Engine.counter]
    omega
  have high : BitVec.ofNat 32 (e.counter / 2 ^ 32) = e.s[13] := by
    apply BitVec.eq_of_toNat_eq
    rw [BitVec.toNat_ofNat, Engine.counter]
    omega
  rw [keystreamBlock, low, high, ← loaded.1]

/-- STEP at keystream position `i` uses keystream byte `i` (R106, R126). -/
theorem stepByte_keystream {e e' : Engine} {b d : Byte} {i : Nat} (loaded : e.LoadedWith key nonce)
    (counter : e.counter = i / 64 % 2 ^ 64) (cur : e.cur.toNat = i % 64) (stepped : stepByte b e = some (e', d)) :
    d = b ^^^ keystreamByte key nonce i := by
  have byte : Memory.lookup (i % 64) e.buf = (blockGenBytes e.s)[i % 64] := by
    rw [loaded.2]
    exact lookup_ofBlock _ ⟨i % 64, Nat.mod_lt _ (by decide)⟩
  rw [(stepByte_cases stepped).1, cur, byte]
  simp only [keystreamByte, ← counter, keystreamBlock_counter loaded]

/-- Source bytes XOR the keystream from its first byte on (R129). -/
def encipher (key : Key) (nonce : Nonce) (src : List Byte) : List Byte :=
  (List.range src.length).map fun i => src.getD i 0#8 ^^^ keystreamByte key nonce i

@[simp] theorem encipher_length (src : List Byte) : (encipher key nonce src).length = src.length := by
  simp [encipher]

theorem encipher_encipher (src : List Byte) : encipher key nonce (encipher key nonce src) = src := by
  refine List.ext_getElem (by simp) fun i _ hi => ?_
  simp [encipher, hi]

theorem advance_iterate_loadedWith (n : Nat) {e : Engine} (loaded : e.LoadedWith key nonce) :
    (Engine.advance^[n] e).LoadedWith key nonce := by
  induction n with
  | zero => exact loaded
  | succ n ih =>
    rw [Function.iterate_succ_apply']
    exact advance_loadedWith ih

theorem advance_iterate_construct_position (n : Nat) (e : Engine) :
    (Engine.advance^[n] (construct key nonce e)).counter = n / 64 % 2 ^ 64 ∧
      (Engine.advance^[n] (construct key nonce e)).cur.toNat = n % 64 := by
  have start := counter_of_s_loadState (construct_s key nonce e)
  have cur : (construct key nonce e).cur.toNat = 0 := rfl
  simpa [start, cur] using advance_iterate_position n (e := construct key nonce e) (by omega)

/-- APPLY after INIT enciphers: source byte `i` meets the engine advanced `i` times (R129). -/
theorem applyBytes_construct {src dst : List Byte} {e e' : Engine}
    (applied : applyBytes src (construct key nonce e) = some (e', dst)) : dst = encipher key nonce src := by
  obtain ⟨-, chain⟩ := applyBytes_chain applied
  have length := (applyBytes_keeps applied).1
  refine List.ext_getElem (by simp [length]) fun i hd _ => ?_
  have hi : i < src.length := length ▸ hd
  obtain ⟨counter, cur⟩ := advance_iterate_construct_position (key := key) (nonce := nonce) i e
  have byte := stepByte_keystream (advance_iterate_loadedWith i (construct_loadedWith e)) counter cur (chain i hi)
  simpa [encipher, hi, hd] using byte

end

/-- Settles O34: the engine after T bytes is the constructed one advanced T times. -/
theorem keystreamLaw : Obligations.KeystreamLaw := by
  intro s key nonce src lens din total
  have initialised := exec_init_success din
  obtain ⟨e', dst, applied⟩ := applyBytes_total src (e := construct key nonce s.eng) (Nat.zero_le 63)
  have whole : src.take lens.sum = src := by rw [total, List.take_length]
  obtain ⟨outs, run, dout, -⟩ := applyRun_ready (lens := lens)
    (s := ((s.setDin src).setEng (construct key nonce s.eng)).send [.rsp 0x00000100#32])
    (construct_ready key nonce s.eng) total.le (by simpa [whole] using applied)
  refine ⟨_, _, initialised, run, ?_⟩
  obtain ⟨counter, cur⟩ := advance_iterate_construct_position (key := key) (nonce := nonce) src.length s.eng
  have loaded := advance_iterate_loadedWith src.length (construct_loadedWith (key := key) (nonce := nonce) s.eng)
  rw [← (applyBytes_chain applied).1] at counter cur loaded
  refine ⟨counter, cur, fun a => ?_, ?_⟩
  · simp only [send_eng, setEng_eng, keystreamBlock_counter loaded]
    exact loaded.2.readByte a
  · have sent : doutOf outs = encipher key nonce src := dout.trans (applyBytes_construct applied)
    simp [sent, encipher]

/-- INIT and one APPLY of all source bytes send the bytes enciphered (R129). -/
theorem init_apply_dout {s t u : State} {key : Key} {nonce : Nonce} {src : List Byte}
    (din : s.ports.din = key.toList ++ nonce.toList ++ src) (ht : exec (.init 32 8) s = .next t)
    (hu : exec (.apply src.length) t = .next u) :
    doutOf u.ports.out = doutOf s.ports.out ++ encipher key nonce src := by
  obtain ⟨t', u', ht', hu', -, -, -, dout⟩ := keystreamLaw s key nonce src [src.length] din (by simp)
  obtain rfl : t = t' := Host.Outcome.next.inj (ht.symm.trans ht')
  obtain rfl : u = u' := by simpa [applyRun, hu] using hu'
  exact dout

/-- Settles O35: enciphering twice restores the bytes. -/
theorem applyTwiceRestoresTheData : Obligations.ApplyTwiceRestoresTheData := by
  intro s₁ s₂ key nonce x y t₁ u₁ t₂ u₂ din₁ din₂ init₁ apply₁ sent init₂ apply₂
  obtain rfl : encipher key nonce x = y := by
    rw [init_apply_dout din₁ init₁ apply₁] at sent
    exact List.append_cancel_left sent
  rw [← encipher_length (key := key) (nonce := nonce) x] at apply₂
  rw [init_apply_dout din₂ init₂ apply₂, encipher_encipher]

/-! ## Beyond the buffer -/

/-- A command whose reply does not exist stops by name. -/
theorem conclude_noReply {n : Nat} {run : List Byte → Engine → Option Reply} {s : State}
    (supplied : n ≤ s.ports.din.length) (noReply : run (s.ports.din.take n) s.eng = none) :
    conclude n run s = .fault .noSuchBufferByte := by
  simp only [conclude, takeBytes_supplied supplied, noReply]

theorem applyReply_beyond {src : List Byte} {e : Engine} (ready : e.ready = true) (beyond : 64 ≤ e.cur.toNat)
    (some_byte : src ≠ []) : applyReply src e = none := by
  obtain ⟨b, src, rfl⟩ := List.exists_cons_of_ne_nil some_byte
  simp [applyReply, ready, applyBytes, stepByte_outOfRange beyond]

/-- Settles O36: the first STEP has no buffer byte; a legal cursor is at most 63. -/
theorem applyBeyondTheBufferStops : Obligations.ApplyBeyondTheBufferStops := by
  refine ⟨fun s len ready beyond positive supplied => ?_, fun e legal => Nat.lt_succ_of_le legal.cur_le⟩
  have some_byte : s.ports.din.take len ≠ [] := by
    rw [← List.length_pos_iff, List.length_take_of_le supplied]
    exact positive
  exact conclude_noReply supplied (applyReply_beyond ready beyond some_byte)

end Sys2Proof.Machine
end

section
/-! # Responses: the response word and which code it carries (spec/30_encoding.md R60, 60_exceptions.md R150, R155) -/

namespace Sys2Proof.Machine

/-- The response word as a number (R60). -/
theorem responseWord_toNat (c : StatusCode) (e : Engine) :
    (responseWord c e).toNat = c.value.toNat + (if e.ready then 1 else 0) * 2 ^ 8 + e.cur.toNat * 2 ^ 16 := by
  simp only [responseWord, readyBit, toNat_append_eq_add, BitVec.toNat_ofBool, BitVec.toNat_ofNat]
  cases e.ready <;> simp <;> omega

/-- A bit field is cut out of the number by division and remainder. -/
theorem extractLsb'_eq_of_toNat {w start len : Nat} {x : BitVec w} {field : BitVec len}
    (cut : x.toNat / 2 ^ start % 2 ^ len = field.toNat) : x.extractLsb' start len = field := by
  apply BitVec.eq_of_toNat_eq
  rw [BitVec.extractLsb'_toNat, Nat.shiftRight_eq_div_pow, cut]

/-- Settles O39: no field of the number reaches into the next. -/
theorem responseWordFields : Obligations.ResponseWordFields := by
  intro c e
  have word := responseWord_toNat c e
  have code : c.value.toNat < 2 ^ 8 := c.value.isLt
  have cur : e.cur.toNat < 2 ^ 7 := e.cur.isLt
  have flag : (BitVec.ofBool e.ready).toNat = if e.ready then 1 else 0 := by cases e.ready <;> rfl
  have bit : (if e.ready then 1 else 0) ≤ 1 := by cases e.ready <;> decide
  have zero (n : Nat) : (0#n).toNat = 0 := BitVec.toNat_zero
  refine ⟨word, extractLsb'_eq_of_toNat ?_, extractLsb'_eq_of_toNat ?_, extractLsb'_eq_of_toNat ?_,
    extractLsb'_eq_of_toNat ?_, extractLsb'_eq_of_toNat ?_, ?_, rfl, rfl, rfl, rfl, rfl⟩
  · omega
  · omega
  · rw [zero]; omega
  · omega
  · rw [zero]; omega
  · cases c <;> decide

/-- The first code that applies, by header arithmetic (R155). -/
theorem headerStatus_eq_arith (h : Word) (ready : Bool) : headerStatus h ready =
    if (h.toNat % 256 ≠ 1 ∧ h.toNat % 256 ≠ 2 ∧ h.toNat % 256 ≠ 3) ∨
        (h.toNat % 256 = 1 ∧ h.toNat / 2 ^ 24 ≠ 0) ∨ (h.toNat % 256 = 3 ∧ h.toNat / 2 ^ 8 ≠ 0) then .errIllegal
    else if h.toNat % 256 = 1 ∧ h.toNat / 2 ^ 8 % 256 ≠ 32 then .errKeyLen
    else if h.toNat % 256 = 1 ∧ h.toNat / 2 ^ 16 % 256 ≠ 8 then .errNonceLen
    else if h.toNat % 256 = 2 ∧ ready = false then .errNotReady
    else .ok := by
  rw [headerStatus, decode_eq_arith]
  obtain opc | opc | opc | ⟨not1, not2, not3⟩ : h.toNat % 256 = 1 ∨ h.toNat % 256 = 2 ∨ h.toNat % 256 = 3 ∨
      (h.toNat % 256 ≠ 1 ∧ h.toNat % 256 ≠ 2 ∧ h.toNat % 256 ≠ 3) := by omega
  · by_cases rsvi : h.toNat < 16777216 <;> simp [opc, rsvi]
  · cases ready <;> simp [opc]
  · by_cases rsvz : h.toNat < 256 <;> simp [opc, rsvz]
  · simp [not1, not2, not3]

/-- Settles O40: `conclude` sends the reply's outputs, and the reply's code is the header's. -/
theorem oneResponseWithTheFirstCode : Obligations.OneResponseWithTheFirstCode := by
  intro s t h acts hc hl ht
  rw [step_supplied hc hl] at ht
  obtain ⟨-, r, replied, rfl⟩ := conclude_next ht
  have code := (commandReply_code replied).trans (headerStatus_eq_arith h _)
  refine ⟨r.dout, ?_⟩
  rw [send_out, Reply.outputs, code, ← List.append_assoc]
  rfl

end Sys2Proof.Machine
end

section
/-! # The ports transfer by transfer: how far a command is, and how it ends (spec/30_encoding.md R51,
70_reset_and_hazards.md R172, R179) -/

namespace Sys2Proof.Machine

/-! ## The work done while the payload arrives -/

/-- The engine and the result bytes once header `h` has taken the payload bytes `p`, before the command settles: the
fold of STEP for an APPLY that is not refused, nothing otherwise (R51 (b)). -/
def workDuring (h : Word) (p : List Byte) (e : Engine) : Option (Engine × List Byte) :=
  match decode h with
  | .instr (.apply _) => if e.ready = false then some (e, []) else applyBytes p e
  | .instr (.init _ _) => some (e, [])
  | .instr .erase => some (e, [])
  | .illegal _ => some (e, [])

theorem workDuring_apply {h : Word} {len : Nat} (hd : decode h = .instr (.apply len)) {e : Engine}
    (ready : e.ready = true) (p : List Byte) : workDuring h p e = applyBytes p e := by
  simp [workDuring, hd, ready]

/-- A header works as an APPLY that is not refused, or not at all. -/
theorem workDuring_cases (h : Word) (e : Engine) :
    (∀ p, workDuring h p e = some (e, [])) ∨ ((∃ len, decode h = .instr (.apply len)) ∧ e.ready = true) := by
  unfold workDuring
  cases decode h with
  | illegal why => exact .inl fun _ => rfl
  | instr i =>
    cases i with
    | init klen nlen => exact .inl fun _ => rfl
    | erase => exact .inl fun _ => rfl
    | apply len =>
      cases ready : e.ready with
      | false => exact .inl fun _ => rfl
      | true => exact .inr ⟨⟨len, rfl⟩, rfl⟩

theorem workDuring_nil (h : Word) (e : Engine) : workDuring h [] e = some (e, []) := by
  rcases workDuring_cases h e with idle | ⟨⟨len, hd⟩, ready⟩
  · exact idle []
  · exact workDuring_apply hd ready []

/-- A payload byte that arrives is the work of one byte (R51 (b)). -/
theorem acceptByte_eq_workDuring (h : Word) (b : Byte) (e : Engine) : acceptByte h b e = workDuring h [b] e := by
  unfold acceptByte workDuring
  cases decode h with
  | illegal why => rfl
  | instr i =>
    cases i with
    | init klen nlen => rfl
    | erase => rfl
    | apply len => cases hs : stepByte b e <;> simp [applyBytes, hs]

/-- The result bytes of a command cut short are those of its work so far (R172). -/
theorem producedBytes_eq_workDuring (h : Word) (p : List Byte) (e : Engine) :
    producedBytes h p e = (workDuring h p e).map Prod.snd := by
  unfold producedBytes workDuring
  cases decode h with
  | illegal why => rfl
  | instr i =>
    cases i with
    | init klen nlen => rfl
    | erase => rfl
    | apply len => cases e.ready <;> cases applyBytes p e <;> simp

/-- The atomic command is the work on its payload, then what `finish` does (R51, R182). -/
theorem commandReply_of_workDuring {h : Word} {p ds : List Byte} {e e₁ : Engine}
    (worked : workDuring h p e = some (e₁, ds)) :
    commandReply h p e = some ⟨(finish h p e₁).1, ds, (finish h p e₁).2⟩ := by
  unfold workDuring at worked
  unfold commandReply finish
  cases hd : decode h with
  | illegal why =>
    obtain ⟨rfl, rfl⟩ : e = e₁ ∧ [] = ds := by simpa [hd] using worked
    rfl
  | instr i =>
    cases i with
    | init klen nlen =>
      obtain ⟨rfl, rfl⟩ : e = e₁ ∧ [] = ds := by simpa [hd] using worked
      rcases initReply_cases klen nlen p e with ⟨-, reply⟩ | ⟨-, -, reply⟩ | ⟨-, -, reply⟩ <;> simp [reply, raiseError]
    | erase =>
      obtain ⟨rfl, rfl⟩ : e = e₁ ∧ [] = ds := by simpa [hd] using worked
      rfl
    | apply len =>
      cases ready : e.ready with
      | false =>
        obtain ⟨rfl, rfl⟩ : e = e₁ ∧ [] = ds := by simpa [hd, ready] using worked
        simp [applyReply, ready, raiseError]
      | true =>
        have applied : applyBytes p e = some (e₁, ds) := by simpa [hd, ready] using worked
        have ready₁ : e₁.ready = true := (applyBytes_keeps applied).2.1.trans ready
        simp [applyReply, ready, applied, ready₁]

/-- Work on a payload and on what follows it. -/
theorem workDuring_append {h : Word} {p q dx dy : List Byte} {e e₁ e₂ : Engine}
    (front : workDuring h p e = some (e₁, dx)) (rest : workDuring h q e₁ = some (e₂, dy)) :
    workDuring h (p ++ q) e = some (e₂, dx ++ dy) := by
  rcases workDuring_cases h e with idle | ⟨⟨len, hd⟩, ready⟩
  · obtain ⟨rfl, rfl⟩ : e = e₁ ∧ [] = dx := by simpa [idle] using front
    obtain ⟨rfl, rfl⟩ : e = e₂ ∧ [] = dy := by simpa [idle] using rest
    exact idle _
  · rw [workDuring_apply hd ready] at front ⊢
    rw [workDuring_apply hd ((applyBytes_keeps front).2.1.trans ready)] at rest
    simp [applyBytes_append, front, rest]

theorem workDuring_total (h : Word) (p : List Byte) {e : Engine} (inRange : e.cur.toNat ≤ 63) :
    ∃ e₁ ds, workDuring h p e = some (e₁, ds) := by
  rcases workDuring_cases h e with idle | ⟨⟨len, hd⟩, ready⟩
  · exact ⟨e, [], idle p⟩
  · rw [workDuring_apply hd ready]
    exact applyBytes_total p inRange

/-- At most one result byte for each payload byte; the cursor stays in range. -/
theorem workDuring_keeps {h : Word} {p ds : List Byte} {e e₁ : Engine} (worked : workDuring h p e = some (e₁, ds)) :
    ds.length ≤ p.length ∧ (e.cur.toNat ≤ 63 → e₁.cur.toNat ≤ 63) := by
  rcases workDuring_cases h e with idle | ⟨⟨len, hd⟩, ready⟩
  · obtain ⟨rfl, rfl⟩ : e = e₁ ∧ [] = ds := by simpa [idle] using worked
    exact ⟨Nat.zero_le _, id⟩
  · obtain ⟨length, -, cur⟩ := applyBytes_keeps ((workDuring_apply hd ready p).symm.trans worked)
    exact ⟨length.le, cur⟩

/-! ## How far a command is -/

/-- The states the ports can be in once the header `h`, accepted in state `p`, has taken the payload bytes `taken`:
taking payload, answering, or over. Of the result bytes, those delivered are in the outputs and those owed in the
phase (R51). -/
inductive Progress (h : Word) (p : PortState) (taken : List Byte) : PortState → Prop where
  | busy {e : Engine} {delivered owed : List Byte} (short : taken.length < payloadLen h)
      (worked : workDuring h taken p.eng = some (e, delivered ++ owed)) :
      Progress h p taken ⟨e, .busy h taken owed, p.out ++ delivered.map .dout⟩
  | answering {e : Engine} {delivered owed : List Byte} (full : taken.length = payloadLen h)
      (worked : workDuring h taken p.eng = some (e, delivered ++ owed)) :
      Progress h p taken ⟨(finish h taken e).1, .answering (finish h taken e).2 owed, p.out ++ delivered.map .dout⟩
  | ended {e : Engine} {delivered : List Byte} (full : taken.length = payloadLen h)
      (worked : workDuring h taken p.eng = some (e, delivered)) :
      Progress h p taken ⟨(finish h taken e).1, .atRest,
        p.out ++ delivered.map .dout ++ [.rsp (responseWord (finish h taken e).2 (finish h taken e).1)]⟩

/-- Settling is progress, whether the payload is complete or not. -/
theorem progress_settle {h : Word} {p m : PortState} {taken delivered owed : List Byte}
    (notOver : taken.length ≤ payloadLen h) (worked : workDuring h taken p.eng = some (m.eng, delivered ++ owed))
    (out : m.out = p.out ++ delivered.map .dout) : Progress h p taken (settle h taken owed m) := by
  rcases settle_cases h taken owed m with ⟨full, settled⟩ | ⟨short, settled⟩
  · rw [settled, out]
    exact .answering full worked
  · rw [settled, out]
    exact .busy (by omega) worked

/-- A header accepted is the first progress. -/
theorem progress_cmd {h : Word} {p m : PortState} (accepted : transfer (.cmd h) p = some m) : Progress h p [] m := by
  obtain ⟨-, rfl⟩ := transfer_cmd accepted
  exact progress_settle (delivered := []) (Nat.zero_le _) (workDuring_nil h p.eng) (List.append_nil _).symm

/-- Every transfer of the command is progress: a payload byte has its work done, a result byte goes from owed to
delivered, and the response ends the command. -/
theorem progress_transfer {h : Word} {p m m' : PortState} {taken : List Byte} {t : Transfer}
    (progress : Progress h p taken m) (ofCommand : t.ofCommand = true) (ht : transfer t m = some m') :
    Progress h p (taken ++ dinBytes [t]) m' := by
  cases t with
  | cmd h' => cases ofCommand
  | rst => cases ofCommand
  | din b =>
    obtain ⟨h', taken', owed', e', ds, phase, -, accepted, rfl⟩ := transfer_din ht
    cases progress with
    | answering full worked => cases phase
    | ended full worked => cases phase
    | @busy e delivered owed short worked =>
      cases phase
      rw [acceptByte_eq_workDuring] at accepted
      refine progress_settle (delivered := delivered) ?_ ?_ rfl
      · rw [List.length_append]
        exact short
      · rw [← List.append_assoc]
        exact workDuring_append worked accepted
  | dout =>
    obtain ⟨d, owed', eng, out, phases⟩ := transfer_dout ht
    obtain ⟨e', phase', out'⟩ := m'
    rw [dinBytes, dinBytes, List.append_nil]
    cases progress with
    | ended full worked => rcases phases with ⟨_, _, phase, -⟩ | ⟨_, phase, -⟩ <;> cases phase
    | @busy e delivered owed short worked =>
      obtain ⟨_, _, phase, rfl⟩ | ⟨_, phase, -⟩ := phases <;> cases phase
      obtain rfl : e' = e := eng
      obtain rfl : out' = _ := out
      simpa using Progress.busy (delivered := delivered ++ [d]) short (by simpa using worked)
    | @answering e delivered owed full worked =>
      obtain ⟨_, _, phase, -⟩ | ⟨_, phase, rfl⟩ := phases <;> cases phase
      obtain rfl : e' = _ := eng
      obtain rfl : out' = _ := out
      simpa using Progress.answering (delivered := delivered ++ [d]) full (by simpa using worked)
  | rsp =>
    obtain ⟨c, phase, rfl⟩ := transfer_rsp ht
    cases progress with
    | busy short worked => cases phase
    | ended full worked => cases phase
    | answering full worked =>
      cases phase
      rw [List.append_nil] at worked
      simpa [dinBytes] using Progress.ended full worked

/-! ## A sequence of transfers -/

theorem transfers_cons_some {t : Transfer} {ts : List Transfer} {p q : PortState} (run : transfers (t :: ts) p = some q) :
    ∃ m, transfer t p = some m ∧ transfers ts m = some q := by
  rw [transfers] at run
  cases first : transfer t p with
  | none => simp [first] at run
  | some m => exact ⟨m, rfl, by simpa [first] using run⟩

theorem dinBytes_cons (t : Transfer) (ts : List Transfer) : dinBytes (t :: ts) = dinBytes [t] ++ dinBytes ts := by
  cases t <;> rfl

/-- Transfers of the command are progress, and each is a payload byte or an output. -/
theorem progress_transfers {h : Word} {p m q : PortState} {taken : List Byte} {ts : List Transfer}
    (progress : Progress h p taken m) (ofCommand : ∀ t ∈ ts, t.ofCommand = true) (run : transfers ts m = some q) :
    Progress h p (taken ++ dinBytes ts) q := by
  induction ts generalizing m taken with
  | nil =>
    obtain rfl : m = q := by simpa [transfers] using run
    simpa [dinBytes] using progress
  | cons t ts ih =>
    obtain ⟨m', first, rest⟩ := transfers_cons_some run
    obtain ⟨ofCommand₁, ofCommands⟩ := List.forall_mem_cons.mp ofCommand
    rw [dinBytes_cons, ← List.append_assoc]
    exact ih (progress_transfer progress ofCommand₁ first) ofCommands rest

/-- A command after its header and any of its transfers (R51). -/
theorem progress_of_transfers {h : Word} {p q : PortState} {ts : List Transfer}
    (ofCommand : ∀ t ∈ ts, t.ofCommand = true) (run : transfers (.cmd h :: ts) p = some q) :
    Progress h p (dinBytes ts) q := by
  obtain ⟨m, accepted, rest⟩ := transfers_cons_some run
  exact progress_transfers (progress_cmd accepted) ofCommand rest

/-- A command that is over is the atomic command (R51). -/
theorem progress_atRest {h : Word} {p q : PortState} {taken : List Byte} (progress : Progress h p taken q)
    (atRest : q.phase = .atRest) :
    ∃ r, commandReply h taken p.eng = some r ∧ taken.length = payloadLen h ∧ q.eng = r.eng ∧
      q.out = p.out ++ r.dout.map .dout ++ [.rsp (responseWord r.code r.eng)] := by
  cases progress with
  | busy short worked => cases atRest
  | answering full worked => cases atRest
  | ended full worked => exact ⟨_, commandReply_of_workDuring worked, full, rfl, rfl⟩

/-- Settles O57: at the end of its progress a command is the atomic one; taking an output writes no engine. -/
theorem transfersAgreeWithTheAtomicCommand : Obligations.TransfersAgreeWithTheAtomicCommand := by
  refine ⟨fun p q h ts _ ofCommand run atRest => progress_atRest (progress_of_transfers ofCommand run) atRest, ?_⟩
  rintro p q (dout | rsp)
  · obtain ⟨d, owed, eng, -⟩ := transfer_dout dout
    exact eng
  · obtain ⟨c, -, rfl⟩ := transfer_rsp rsp
    rfl

/-- Settles O59: while a command is in progress only result bytes have been delivered, the first of those its work has
produced. -/
theorem resetAtThePortsDeliversAPrefix : Obligations.ResetAtThePortsDeliversAPrefix := by
  intro p m q h ts _ ofCommand run inCommand reset
  rw [transfer_rst, resetEngine_eq] at reset
  obtain rfl := Option.some.inj reset
  refine ⟨rfl, rfl, ?_⟩
  rw [producedBytes_eq_workDuring]
  cases progress_of_transfers ofCommand run with
  | ended full worked => exact absurd rfl inCommand
  | busy short worked => exact ⟨_, _, by rw [worked]; rfl, List.prefix_append _ _, rfl⟩
  | answering full worked => exact ⟨_, _, by rw [worked]; rfl, List.prefix_append _ _, rfl⟩

/-! ## Every command can complete -/

/-- Every transfer of a command takes a payload byte or sends an output. -/
theorem transfer_count {t : Transfer} {p q : PortState} (ofCommand : t.ofCommand = true) (ht : transfer t p = some q) :
    1 + p.out.length = (dinBytes [t]).length + q.out.length := by
  cases t with
  | cmd h => cases ofCommand
  | rst => cases ofCommand
  | din b =>
    obtain ⟨h, taken, owed, e, ds, -, -, -, rfl⟩ := transfer_din ht
    simp [dinBytes]
  | dout =>
    obtain ⟨d, owed, -, out, -⟩ := transfer_dout ht
    simp [dinBytes, out, Nat.add_comm]
  | rsp =>
    obtain ⟨c, -, rfl⟩ := transfer_rsp ht
    simp [dinBytes, Nat.add_comm]

theorem transfers_count {ts : List Transfer} {p q : PortState} (ofCommand : ∀ t ∈ ts, t.ofCommand = true)
    (run : transfers ts p = some q) : ts.length + p.out.length = (dinBytes ts).length + q.out.length := by
  induction ts generalizing p with
  | nil =>
    obtain rfl : p = q := by simpa [transfers] using run
    rfl
  | cons t ts ih =>
    obtain ⟨m, first, rest⟩ := transfers_cons_some run
    obtain ⟨ofCommand₁, ofCommands⟩ := List.forall_mem_cons.mp ofCommand
    have one := transfer_count ofCommand₁ first
    have others := ih ofCommands rest
    rw [dinBytes_cons, List.length_append, List.length_cons]
    omega

/-- Accepting a header sends nothing. -/
theorem transfer_cmd_out {h : Word} {p m : PortState} (accepted : transfer (.cmd h) p = some m) : m.out = p.out := by
  obtain ⟨-, rfl⟩ := transfer_cmd accepted
  exact settle_out ..

/-- In progress a command has taken no more payload than announced, and sent no more than that and a response. -/
theorem progress_bound {h : Word} {p m : PortState} {taken : List Byte} (progress : Progress h p taken m) :
    taken.length ≤ payloadLen h ∧ m.out.length ≤ p.out.length + payloadLen h + 1 := by
  cases progress with
  | busy short worked =>
    have produced := (workDuring_keeps worked).1
    simp only [List.length_append, List.length_map] at produced ⊢
    omega
  | answering full worked =>
    have produced := (workDuring_keeps worked).1
    simp only [List.length_append, List.length_map] at produced ⊢
    omega
  | ended full worked =>
    have produced := (workDuring_keeps worked).1
    simp only [List.length_append, List.length_map, List.length_singleton] at produced ⊢
    omega

/-- While the payload is not complete, any byte that comes next is taken (R179). -/
theorem transfer_din_busy {h : Word} {e : Engine} {taken owed : List Byte} {out : List PortOut}
    (short : taken.length < payloadLen h) (inRange : e.cur.toNat ≤ 63) (b : Byte) :
    ∃ q, transfer (.din b) ⟨e, .busy h taken owed, out⟩ = some q := by
  obtain ⟨e₁, ds, worked⟩ := workDuring_total h [b] inRange
  exact ⟨settle h (taken ++ [b]) (owed ++ ds) ⟨e₁, .busy h taken owed, out⟩,
    by simp [transfer, short, acceptByte_eq_workDuring, worked]⟩

/-- A command in progress is never stuck. -/
theorem progress_notStuck {h : Word} {p m : PortState} {taken : List Byte} (progress : Progress h p taken m)
    (inRange : p.eng.cur.toNat ≤ 63) (inCommand : m.phase ≠ .atRest) :
    (∃ q, transfer .dout m = some q) ∨ (∀ b, ∃ q, transfer (.din b) m = some q) ∨ ∃ q, transfer .rsp m = some q := by
  cases progress with
  | busy short worked => exact .inr (.inl (transfer_din_busy short ((workDuring_keeps worked).2 inRange)))
  | @answering e delivered owed full worked =>
    cases owed with
    | nil => exact .inr (.inr ⟨_, rfl⟩)
    | cons d owed => exact .inl ⟨_, rfl⟩
  | ended full worked => exact absurd rfl inCommand

/-- The host takes all result bytes owed and then the response. -/
theorem transfers_answering (code : StatusCode) (owed : List Byte) (e : Engine) (out : List PortOut) :
    ∃ ts q, (∀ t ∈ ts, t.ofCommand = true) ∧ dinBytes ts = [] ∧
      transfers ts ⟨e, .answering code owed, out⟩ = some q ∧ q.phase = .atRest := by
  induction owed generalizing out with
  | nil => exact ⟨[.rsp], _, by decide, rfl, rfl, rfl⟩
  | cons d owed ih =>
    obtain ⟨ts, q, ofCommand, din, run, atRest⟩ := ih (out ++ [.dout d])
    exact ⟨.dout :: ts, q, List.forall_mem_cons.mpr ⟨rfl, ofCommand⟩, din, run, atRest⟩

theorem settle_inCommand (h : Word) (taken owed : List Byte) (p : PortState) :
    (settle h taken owed p).phase ≠ .atRest := by
  rcases settle_cases h taken owed p with ⟨-, settled⟩ | ⟨-, settled⟩ <;> simp [settled]

/-- From any progress the rest of the payload can be seen through: its bytes first, then the outputs. -/
theorem progress_completes {h : Word} {p m : PortState} {taken rest : List Byte} (progress : Progress h p taken m)
    (inRange : p.eng.cur.toNat ≤ 63) (inCommand : m.phase ≠ .atRest) (length : taken.length + rest.length = payloadLen h) :
    ∃ ts q, (∀ t ∈ ts, t.ofCommand = true) ∧ dinBytes ts = rest ∧ transfers ts m = some q ∧ q.phase = .atRest := by
  induction rest generalizing m taken with
  | nil =>
    rw [List.length_nil] at length
    cases progress with
    | busy short worked => omega
    | answering full worked => exact transfers_answering ..
    | ended full worked => exact absurd rfl inCommand
  | cons b rest ih =>
    rw [List.length_cons] at length
    have short : taken.length < payloadLen h := by omega
    obtain ⟨m', first⟩ : ∃ m', transfer (.din b) m = some m' := by
      cases progress with
      | busy _ worked => exact transfer_din_busy short ((workDuring_keeps worked).2 inRange) b
      | answering full worked => omega
      | ended full worked => exact absurd rfl inCommand
    have inCommand' : m'.phase ≠ .atRest := by
      obtain ⟨_, _, _, _, _, -, -, -, rfl⟩ := transfer_din first
      exact settle_inCommand _ _ _ _
    have length' : (taken ++ [b]).length + rest.length = payloadLen h := by
      rw [List.length_append, List.length_singleton]
      omega
    obtain ⟨ts, q, ofCommand, din, run, atRest⟩ := ih (progress_transfer progress rfl first) inCommand' length'
    exact ⟨.din b :: ts, q, List.forall_mem_cons.mpr ⟨rfl, ofCommand⟩, congrArg (b :: ·) din,
      by simp only [transfers, first, run], atRest⟩

/-- Settles O58: the bound counts payload bytes and outputs; an engine that is legal has its cursor in range, so no
payload byte is ever refused. -/
theorem everyCommandCanComplete : Obligations.EveryCommandCanComplete := by
  intro p h atRest legal
  refine ⟨fun m ts ofCommand run => ?_, fun payload length => ?_⟩
  · have progress := progress_of_transfers ofCommand run
    refine ⟨?_, progress_notStuck progress legal.cur_le⟩
    obtain ⟨m₀, accepted, rest⟩ := transfers_cons_some run
    have count := transfers_count ofCommand rest
    obtain ⟨taken, sent⟩ := progress_bound progress
    rw [transfer_cmd_out accepted] at count
    omega
  · have accepted : transfer (.cmd h) p = some (settle h [] [] p) := by simp [transfer, atRest]
    obtain ⟨ts, q, ofCommand, din, run, atRest'⟩ := progress_completes (progress_cmd accepted) legal.cur_le
      (settle_inCommand h [] [] p) (by simpa using length)
    have whole : transfers (.cmd h :: ts) p = some q := by simp only [transfers, accepted, run]
    have ended := progress_of_transfers ofCommand whole
    rw [din] at ended
    obtain ⟨r, replied, -, -, out⟩ := progress_atRest ended atRest'
    refine ⟨ts, q, r, replied, din, ofCommand, ?_, whole, atRest'⟩
    have count := transfers_count ofCommand run
    rw [din, settle_out, out] at count
    simp only [List.length_append, List.length_map, List.length_singleton] at count
    omega

end Sys2Proof.Machine
end
